-- ==== Sys2Proof/Word.lean ====
section
/-! DEFINITION. The words of the LS-8 core: bytes, register numbers and interrupt lines. -/

namespace Sys2Proof

/-- A byte: a register value, a memory byte, an address, the pc (00_scope.md R8; 10_state.md R21, R28).
It is unsigned and its arithmetic is modulo 256. -/
abbrev Byte := BitVec 8

/-- A general register number, 0 to 7: 8 registers (00_scope.md R3; 10_state.md R20). -/
abbrev Reg := Fin 8

/-- An interrupt line number, 0 to 7: 8 vector entries (00_scope.md R3, R6). -/
abbrev Line := Fin 8

/-- The operand byte that names a register (30_encoding.md R72). -/
def regByte (r : Reg) : Byte := BitVec.ofNat 8 r.val

end Sys2Proof
end

