-- ==== Sys2Proof/Config.lean ====
section
/-! DEFINITION. The open parameter OPCODE_MAP: its type, the constraints the spec puts on it, and the two tables the spec
lists for it. Which table the model runs with is chosen in Decode.lean; SP_RESET and the byte of unlisted memory are in
Machine/Params.lean. -/

namespace Sys2Proof

/-- OPCODE_MAP: the opcode byte of each of the 17 mnemonics (30_encoding.md R76; 92_eei_decisions.md D3). -/
structure OpcodeMap where
  nop : Byte
  ldi : Byte
  add : Byte
  mul : Byte
  cmp : Byte
  prn : Byte
  pra : Byte
  push : Byte
  pop : Byte
  call : Byte
  ret : Byte
  jmp : Byte
  jeq : Byte
  jne : Byte
  st : Byte
  iret : Byte
  hlt : Byte
  deriving DecidableEq, Repr

namespace OpcodeMap

/-- The assigned bytes, in the order of 30_encoding.md R74. -/
def bytes (m : OpcodeMap) : List Byte :=
  [m.nop, m.ldi, m.add, m.mul, m.cmp, m.prn, m.pra, m.push, m.pop, m.call, m.ret, m.jmp, m.jeq, m.jne, m.st, m.iret, m.hlt]

/-- The constraints of 30_encoding.md R76: the bytes are pairwise distinct and 0xFF is not assigned (00_scope.md R3). -/
abbrev Valid (m : OpcodeMap) : Prop := m.bytes.Nodup ∧ 0xFF#8 ∉ m.bytes

/-- Alternative A, the published LS-8 table (30_encoding.md R75; the spec marks it as general knowledge). -/
def published : OpcodeMap where
  nop := 0x00
  ldi := 0x82
  add := 0xA0
  mul := 0xA2
  cmp := 0xA7
  prn := 0x47
  pra := 0x48
  push := 0x45
  pop := 0x46
  call := 0x50
  ret := 0x11
  jmp := 0x54
  jeq := 0x55
  jne := 0x56
  st := 0x84
  iret := 0x13
  hlt := 0x01

/-- Alternative B, an earlier LS-8 edition (92_eei_decisions.md D3; the spec marks it as general knowledge, less certain). -/
def earlierEdition : OpcodeMap where
  nop := 0x00
  ldi := 0x99
  add := 0xA8
  mul := 0xAA
  cmp := 0xA0
  prn := 0x43
  pra := 0x42
  push := 0x4D
  pop := 0x4C
  call := 0x48
  ret := 0x09
  jmp := 0x50
  jeq := 0x51
  jne := 0x52
  st := 0x9A
  iret := 0x0B
  hlt := 0x01

end OpcodeMap

end Sys2Proof
end

