-- ==== Sys2Proof/Syntax.lean ====
section
/-! DEFINITION. The instruction set as syntax: the 17 rows of spec/opcode_table.json, their formats and their operands. -/

namespace Sys2Proof

/-- The 17 mnemonics of 30_encoding.md R74, in its order. -/
inductive Mnemonic where
  | nop | ldi | add | mul | cmp | prn | pra | push | pop | call | ret | jmp | jeq | jne | st | iret | hlt
  deriving DecidableEq, Repr

/-- The four instruction formats (30_encoding.md R71). -/
inductive Format where
  | z   -- no operand
  | r   -- one register
  | rr  -- two registers
  | ri  -- register, immediate
  deriving DecidableEq, Repr

/-- The width of a format in bytes, the opcode byte included (30_encoding.md R71). -/
def Format.width : Format → Nat
  | .z => 1
  | .r => 2
  | .rr => 3
  | .ri => 3

/-- Every mnemonic, in the order of 30_encoding.md R74. -/
def Mnemonic.all : List Mnemonic :=
  [.nop, .ldi, .add, .mul, .cmp, .prn, .pra, .push, .pop, .call, .ret, .jmp, .jeq, .jne, .st, .iret, .hlt]

/-- The format of each mnemonic (30_encoding.md R71, R74). -/
def Mnemonic.format : Mnemonic → Format
  | .nop => .z
  | .ldi => .ri
  | .add => .rr
  | .mul => .rr
  | .cmp => .rr
  | .prn => .r
  | .pra => .r
  | .push => .r
  | .pop => .r
  | .call => .r
  | .ret => .z
  | .jmp => .r
  | .jeq => .r
  | .jne => .r
  | .st => .rr
  | .iret => .z
  | .hlt => .z

/-- The width of each mnemonic, fixed per opcode (00_scope.md R3; 30_encoding.md R74, R80). -/
def Mnemonic.width (x : Mnemonic) : Nat := x.format.width

/-- An instruction with its operand bytes as fetched. A register operand is the WHOLE operand byte, so that a byte above 7
can be written down: it is what raises OperandFault (30_encoding.md R72; 40_engine.md R104). -/
inductive Instr where
  | nop
  | ldi (op1 imm : Byte)
  | add (op1 op2 : Byte)
  | mul (op1 op2 : Byte)
  | cmp (op1 op2 : Byte)
  | prn (op1 : Byte)
  | pra (op1 : Byte)
  | push (op1 : Byte)
  | pop (op1 : Byte)
  | call (op1 : Byte)
  | ret
  | jmp (op1 : Byte)
  | jeq (op1 : Byte)
  | jne (op1 : Byte)
  | st (op1 op2 : Byte)
  | iret
  | hlt
  deriving DecidableEq, Repr

/-- The mnemonic of an instruction. -/
def Instr.mnemonic : Instr → Mnemonic
  | .nop => .nop
  | .ldi _ _ => .ldi
  | .add _ _ => .add
  | .mul _ _ => .mul
  | .cmp _ _ => .cmp
  | .prn _ => .prn
  | .pra _ => .pra
  | .push _ => .push
  | .pop _ => .pop
  | .call _ => .call
  | .ret => .ret
  | .jmp _ => .jmp
  | .jeq _ => .jeq
  | .jne _ => .jne
  | .st _ _ => .st
  | .iret => .iret
  | .hlt => .hlt

/-- The operand bytes after the opcode byte, operand 1 first (30_encoding.md R71). -/
def Instr.operandBytes : Instr → List Byte
  | .nop => []
  | .ldi a i => [a, i]
  | .add a b => [a, b]
  | .mul a b => [a, b]
  | .cmp a b => [a, b]
  | .prn a => [a]
  | .pra a => [a]
  | .push a => [a]
  | .pop a => [a]
  | .call a => [a]
  | .ret => []
  | .jmp a => [a]
  | .jeq a => [a]
  | .jne a => [a]
  | .st a b => [a, b]
  | .iret => []
  | .hlt => []

/-- The position of an operand byte: operand 1 or operand 2 (30_encoding.md R71; 60_exceptions.md R202). -/
inductive Position where
  | one
  | two
  deriving DecidableEq, Repr

/-- The register-operand positions of an instruction with their bytes, position 1 first: op1 of every format R, RR and RI
instruction and op2 of every format RR instruction; LDI's op2 is an immediate and is no register operand
(40_engine.md R104). -/
def Instr.registerOperands : Instr → List (Position × Byte)
  | .nop => []
  | .ldi a _ => [(.one, a)]
  | .add a b => [(.one, a), (.two, b)]
  | .mul a b => [(.one, a), (.two, b)]
  | .cmp a b => [(.one, a), (.two, b)]
  | .prn a => [(.one, a)]
  | .pra a => [(.one, a)]
  | .push a => [(.one, a)]
  | .pop a => [(.one, a)]
  | .call a => [(.one, a)]
  | .ret => []
  | .jmp a => [(.one, a)]
  | .jeq a => [(.one, a)]
  | .jne a => [(.one, a)]
  | .st a b => [(.one, a), (.two, b)]
  | .iret => []
  | .hlt => []

end Sys2Proof
end

