-- ==== Sys2Proof/WellFormed.lean ====
section
/-! DEFINITION. Well-formed instructions: every register operand byte names a register. -/

namespace Sys2Proof

/-- A register-index byte names a register when it is in 0 to 7; the whole byte is compared (30_encoding.md R72). -/
def registerByteOk (b : Byte) : Bool := decide (b.toNat ≤ 7)

/-- The check of 40_engine.md R104: every register operand of the instruction is in 0 to 7. An immediate is never checked. -/
def Instr.wellFormed (i : Instr) : Bool := i.registerOperands.all fun p => registerByteOk p.2

/-- The first register operand above 7, position 1 first (40_engine.md R104). -/
def Instr.firstBadOperand (i : Instr) : Option (Position × Byte) :=
  i.registerOperands.find? fun p => !registerByteOk p.2

end Sys2Proof
end

