-- ==== Sys2Proof/Decode.lean ====
section
/-! DEFINITION. The decoder, total on any bytes and rejecting by name, and the encoder, both written over an arbitrary
OPCODE_MAP, and the map the model runs with. -/

namespace Sys2Proof

/-- The OPCODE_MAP the model runs with: the spec's default, alternative A (30_encoding.md R75; 92_eei_decisions.md D3).
DESIGN CHOICE (log entry 1): the spec leaves the parameter OPEN and names this default. Unsafe where the hardware's table
is another. -/
def opcodeMap : OpcodeMap := OpcodeMap.published

/-- The opcode byte of a mnemonic (30_encoding.md R76). -/
def OpcodeMap.byteOf (m : OpcodeMap) : Mnemonic → Byte
  | .nop => m.nop
  | .ldi => m.ldi
  | .add => m.add
  | .mul => m.mul
  | .cmp => m.cmp
  | .prn => m.prn
  | .pra => m.pra
  | .push => m.push
  | .pop => m.pop
  | .call => m.call
  | .ret => m.ret
  | .jmp => m.jmp
  | .jeq => m.jeq
  | .jne => m.jne
  | .st => m.st
  | .iret => m.iret
  | .hlt => m.hlt

/-- The dispatch table: a lookup of the WHOLE opcode byte, total on all 256 bytes; `none` is "no handler"
(30_encoding.md R78). -/
def dispatch (m : OpcodeMap) (b : Byte) : Option Mnemonic := Mnemonic.all.find? fun x => m.byteOf x == b

/-- Why a byte list is no instruction. -/
inductive DecodeError where
  /-- The opcode byte has no handler (30_encoding.md R79): the engine raises DecodeFault. -/
  | noHandler (opcode : Byte)
  /-- The list ends before the instruction does. The engine never meets it: it gives the decoder every operand byte. -/
  | truncated
  deriving DecidableEq, Repr

/-- An instruction with no operand byte (format Z). -/
def operandsZ (i : Instr) (bs : List Byte) : Except DecodeError (Instr × List Byte) := .ok (i, bs)

/-- An instruction with one operand byte (format R). -/
def operandsR (f : Byte → Instr) : List Byte → Except DecodeError (Instr × List Byte)
  | a :: bs => .ok (f a, bs)
  | [] => .error .truncated

/-- An instruction with two operand bytes, operand 1 first (formats RR and RI). -/
def operandsRR (f : Byte → Byte → Instr) : List Byte → Except DecodeError (Instr × List Byte)
  | a :: b :: bs => .ok (f a b, bs)
  | [_] => .error .truncated
  | [] => .error .truncated

/-- The operand bytes of a decoded mnemonic, read as its format says (30_encoding.md R71, R74). -/
def decodeOperands : Mnemonic → List Byte → Except DecodeError (Instr × List Byte)
  | .nop, bs => operandsZ .nop bs
  | .ldi, bs => operandsRR .ldi bs
  | .add, bs => operandsRR .add bs
  | .mul, bs => operandsRR .mul bs
  | .cmp, bs => operandsRR .cmp bs
  | .prn, bs => operandsR .prn bs
  | .pra, bs => operandsR .pra bs
  | .push, bs => operandsR .push bs
  | .pop, bs => operandsR .pop bs
  | .call, bs => operandsR .call bs
  | .ret, bs => operandsZ .ret bs
  | .jmp, bs => operandsR .jmp bs
  | .jeq, bs => operandsR .jeq bs
  | .jne, bs => operandsR .jne bs
  | .st, bs => operandsRR .st bs
  | .iret, bs => operandsZ .iret bs
  | .hlt, bs => operandsZ .hlt bs

/-- The decoder under an opcode map: the first instruction of a byte list, and the bytes after it
(30_encoding.md R70, R78, R80). Register operands are not checked here: that is a later part of the tick
(40_engine.md R101, R104). -/
def decodeWith (m : OpcodeMap) : List Byte → Except DecodeError (Instr × List Byte)
  | [] => .error .truncated
  | b :: bs =>
    match dispatch m b with
    | none => .error (.noHandler b)
    | some x => decodeOperands x bs

/-- The decoder under the model's opcode map. -/
def decode (bs : List Byte) : Except DecodeError (Instr × List Byte) := decodeWith opcodeMap bs

/-- The bytes of an instruction under an opcode map: the opcode byte, then operand 1, then operand 2
(30_encoding.md R70, R71). -/
def encodeWith (m : OpcodeMap) (i : Instr) : List Byte := m.byteOf i.mnemonic :: i.operandBytes

/-- The encoder under the model's opcode map. -/
def encode (i : Instr) : List Byte := encodeWith opcodeMap i

/-- The three bytes of an instruction whose first `nbits` bits are w, numbered as spec/opcode_table.json numbers them: byte 0
(the opcode) is bits 7..0, byte 1 is bits 15..8, byte 2 is bits 23..16; the bits from `nbits` on are 0. -/
def tableBytes (nbits w : Nat) : List Byte :=
  let v := w % 2 ^ nbits
  [BitVec.ofNat 8 v, BitVec.ofNat 8 (v / 256), BitVec.ofNat 8 (v / 65536)]

/-- The instruction the decoder reads from a word of spec/opcode_table.json. -/
def decodeTableWord (nbits w : Nat) : Option Instr :=
  match decode (tableBytes nbits w) with
  | .ok (i, _) => some i
  | .error _ => none

end Sys2Proof
end

