-- ==== Sys2Proof/Machine/Params.lean ====
section
/-! DEFINITION. The machine's parameters: the fixed ones of 00_scope.md R6 and the defaults of the open ones of R7. -/

namespace Sys2Proof.Machine

/-- The Interrupt Mask register IM is R5 (00_scope.md R3; 10_state.md R22, R23). -/
def IM : Reg := 5

/-- The Interrupt Status register IS is R6 (00_scope.md R3; 10_state.md R22, R24). -/
def IS : Reg := 6

/-- The Stack Pointer SP is R7 (00_scope.md R3; 10_state.md R22, R25). -/
def SP : Reg := 7

/-- The base of the interrupt vector table (00_scope.md R3; 20_memory.md R54). -/
def vectorBase : Byte := 0xF8

/-- The address of the vector table entry of a line (20_memory.md R54). -/
def vectorAddress (i : Line) : Byte := vectorBase + BitVec.ofNat 8 i.val

/-- The line the timer source raises (00_scope.md R6; 60_exceptions.md R215). -/
def timerLine : Line := 0

/-- SP_RESET, the reset value of R7: DESIGN CHOICE (log entry 2), the spec's named default for an OPEN parameter
(92_eei_decisions.md D10). -/
def spReset : Byte := 0xF4

/-- What a memory byte that the image does not list reads as: DESIGN CHOICE (log entry 4). MEM_IMAGE is an OPEN launch
parameter and the spec's examples take unpoked bytes as 0x00 (92_eei_decisions.md D9). -/
def unlistedByte : Byte := 0x00

/-- The number of addresses: memory is 256 bytes, 0x00 to 0xFF (20_memory.md R50; 92_eei_decisions.md D1). -/
def memSize : Nat := 256

end Sys2Proof.Machine
end

