-- ==== Sys2Proof/Machine/State.lean ====
section
/-! DEFINITION. The state of the machine, whole and as plain data (10_state.md), its reset value, and the reasons a step
can stop. -/

namespace Sys2Proof.Machine

/-- The `equal` flag, tri-state (10_state.md R35). -/
inductive EqFlag where
  | unset
  | isTrue
  | isFalse
  deriving DecidableEq, Repr

/-- The execution status of the core (10_state.md R38). -/
inductive Clock where
  | stopped
  | running
  | halted
  deriving DecidableEq, Repr

/-- Why the clock stopped (10_state.md R39). -/
inductive HaltReason where
  | none
  | hlt (addr : Byte)
  | decodeFault (addr opcode : Byte)
  | operandFault (addr opcode : Byte) (position : Position) (value : Byte)
  | hostStop
  deriving DecidableEq, Repr

/-- An output event: Num(v) from PRN, Chr(v) from PRA (42_output.md, opening text; R140, R141). -/
inductive OutEvent where
  | num (v : Byte)
  | chr (v : Byte)
  deriving DecidableEq, Repr

/-- What acts next on the machine: a tick of the instruction clock, a firing of the timer source, or a call of the host
(40_engine.md R100, R109; 60_exceptions.md R215, R231, R232). The model's own type (log entry 9). -/
inductive Input where
  | tick
  | timer
  | poke (address value : Byte)
  | startClock
  | stopClock
  deriving DecidableEq, Repr

/-- Memory: (address, byte) pairs in the canonical form of `Memory.wf` (20_memory.md R50). -/
abbrev Memory := List Host.Cell

/-- The machine's state: the full list of 10_state.md, and the model's own schedule `inputs`. -/
structure State where
  /-- R0 to R7; R5 is IM, R6 is IS, R7 is SP (R20 to R25). -/
  regs : Vector Byte 8
  /-- The program counter (R28, R29). -/
  pc : Byte
  /-- The instruction register (R31). -/
  ir : Byte
  /-- interruptsEnabled (R33). -/
  ie : Bool
  /-- The `equal` flag (R35). -/
  eq : EqFlag
  /-- The execution status (R38). -/
  clock : Clock
  /-- Why the clock stopped (R39). -/
  haltReason : HaltReason
  /-- The output events, oldest first (R40). -/
  out : List OutEvent
  /-- The memory collaborator's 256 bytes (20_memory.md R50). -/
  mem : Memory
  /-- What acts next, first entry first; when it is empty, every step is a tick. The model's own field (log entry 9). -/
  inputs : List Input
  deriving DecidableEq, Repr

/-- Why a step stops with no next state. The two fatal faults of the spec are NOT here: the spec gives the state they leave,
so their tick answers a next state whose clock is halted (log entry 8). -/
inductive Fault where
  /-- Raised by Engine.lean when a tick or a timer event is due and the clock is stopped: "While clock is stopped or halted
  the core has no step" (40_engine.md R100). Safe: the spec has no step there. -/
  | clockStopped
  /-- Raised by Engine.lean when a tick or a timer event is due and the clock is halted: "no further ticks occur"
  (40_engine.md R100, R110). Safe: the spec has no step there. -/
  | clockHalted
  deriving DecidableEq, Repr

/-- Why the model gives no meaning. -/
inductive Refusal where
  /-- Raised by Dispatch.lean for an instruction with no meaning yet. No arm raises it. Safe. -/
  | notModelled (mnemonic : String)
  /-- Raised by Environment.lean for `poke` while the clock, given here, is not stopped: "A model refuses such calls"
  (60_exceptions.md R231, D19). Safe. -/
  | pokeAfterStart (clock : Clock)
  /-- Raised by Environment.lean for `startClock` while the clock, given here, is not stopped: "A model refuses such calls"
  (60_exceptions.md R231, D19). Safe. -/
  | startAfterStart (clock : Clock)
  deriving DecidableEq, Repr

/-- What a step or a meaning answers. -/
abbrev Result := Host.Outcome State Fault Refusal

/-- The state at construction under the parameters SP_RESET and MEM_IMAGE (70_reset_and_hazards.md R240). R0 to R6, pc and
ir are 0 by the spec's decisions D6, D7 and D8 (log entry 3). -/
def State.construct (spReset : Byte) (memImage : Memory) : State where
  regs := #v[0, 0, 0, 0, 0, 0, 0, spReset]
  pc := 0
  ir := 0
  ie := true
  eq := .unset
  clock := .stopped
  haltReason := .none
  out := []
  mem := memImage
  inputs := []

/-- The machine right after reset, which happens only at construction (70_reset_and_hazards.md R240, R241), with the default
SP_RESET and with no memory byte listed. -/
def State.reset : State := State.construct spReset []

end Sys2Proof.Machine
end

