-- ==== Sys2Proof/Machine/Flags.lean ====
section
/-! DEFINITION. The one flag computation: CMP's `equal` flag. No other flag exists (10_state.md R37). -/

namespace Sys2Proof.Machine

/-- CMP's flag: true when every bit set in a is also set in b, else false; never unset (41_alu_data.md R126). The source
calls it a documented quirk: it is not arithmetic equality. -/
def subsetFlag (a b : Byte) : EqFlag := if a &&& ~~~b = 0 then .isTrue else .isFalse

end Sys2Proof.Machine
end

