-- ==== Sys2Proof/Machine/Ops.lean ====
section
/-! DEFINITION. The named operations over memory, registers and the stack, the halt, and the interrupt entry and its
return, each written once. -/

namespace Sys2Proof.Machine

/-! ## Memory -/

/-- The byte at an address: the listed one, else `unlistedByte` (20_memory.md R52, R53). -/
def Memory.read : Memory → Nat → Byte
  | [], _ => unlistedByte
  | (k, w) :: m, a => if k = a then w else Memory.read m a

/-- A cell in front of a memory, left out when it says what an unlisted address reads as. -/
def Memory.consCell (a : Nat) (v : Byte) (m : Memory) : Memory := if v = unlistedByte then m else (a, v) :: m

/-- Store a byte, keeping the canonical form (20_memory.md R52, R61). -/
def Memory.write : Memory → Nat → Byte → Memory
  | [], a, v => Memory.consCell a v []
  | (k, w) :: m, a, v =>
    if a < k then Memory.consCell a v ((k, w) :: m)
    else if a = k then Memory.consCell a v m
    else (k, w) :: Memory.write m a v

/-- The canonical form: addresses strictly rising and below 256, and no entry equal to what an unlisted address reads as. -/
def Memory.wf (m : Memory) : Bool :=
  decide (m.Pairwise fun c d => c.1 < d.1) && m.all fun c => decide (c.1 < memSize) && decide (c.2 ≠ unlistedByte)

/-- MemRead(a) (00_scope.md R9). Every 8-bit address exists (20_memory.md R50, R52). -/
def State.memRead (s : State) (a : Byte) : Byte := s.mem.read a.toNat

/-- MemWrite(a, v) (00_scope.md R9). -/
def State.memWrite (s : State) (a v : Byte) : State := { s with mem := s.mem.write a.toNat v }

/-! ## Registers and the pc -/

/-- R[r] (10_state.md R20). -/
def State.reg (s : State) (r : Reg) : Byte := s.regs[r.val]

/-- R[r] <- v (10_state.md R20, R21); no register is hardwired. -/
def State.setReg (s : State) (r : Reg) (v : Byte) : State := { s with regs := s.regs.set r.val v }

/-- SP is another name for R[7] (00_scope.md R9). -/
def State.sp (s : State) : Byte := s.reg SP

/-- pc <- target (00_scope.md R9). -/
def State.setPc (s : State) (target : Byte) : State := { s with pc := target }

/-- The pc advance of a handler that transfers no control, modulo 256 (40_engine.md R106). -/
def State.advance (s : State) (width : Nat) : State := s.setPc (s.pc + BitVec.ofNat 8 width)

/-- ir <- v; only the fetch does it (10_state.md R31). -/
def State.setIr (s : State) (v : Byte) : State := { s with ir := v }

/-- ie <- b (10_state.md R33). -/
def State.setIe (s : State) (b : Bool) : State := { s with ie := b }

/-- eq <- f (10_state.md R35). -/
def State.setEq (s : State) (f : EqFlag) : State := { s with eq := f }

/-- The clock starts to run (10_state.md R38). -/
def State.start (s : State) : State := { s with clock := .running }

/-- The schedule after its first entry is taken; the model's own (log entry 9). -/
def State.setInputs (s : State) (l : List Input) : State := { s with inputs := l }

/-- Out(e): append an event to the output channel (10_state.md R40; 42_output.md R142). -/
def State.emit (s : State) (e : OutEvent) : State := { s with out := s.out ++ [e] }

/-! ## The stack (00_scope.md R11) -/

/-- push(v): SP <- SP - 1, then MemWrite(SP, v), v evaluated after the decrement (R11; D5, log entry 6). -/
def State.push (s : State) (v : State → Byte) : State :=
  let s1 := s.setReg SP (s.sp - 1)
  s1.memWrite s1.sp (v s1)

/-- pop_into(R[r]): the byte at SP into R[r], then SP <- SP + 1, SP read after that write (R11; D5, log entry 6). -/
def State.popReg (s : State) (r : Reg) : State :=
  let s1 := s.setReg r (s.memRead s.sp)
  s1.setReg SP (s1.sp + 1)

/-- pop_into(pc) (R11). -/
def State.popPc (s : State) : State :=
  let s1 := s.setPc (s.memRead s.sp)
  s1.setReg SP (s1.sp + 1)

/-! ## Halting and the two fatal faults -/

/-- stop(reason): the clock halts with the given reason (00_scope.md R9; 10_state.md R38, R39). -/
def State.halt (s : State) (r : HaltReason) : State := { s with clock := .halted, haltReason := r }

/-- DecodeFault: reports the pc and the fetched byte and halts; nothing else changes (60_exceptions.md R201;
40_engine.md R107). -/
def State.decodeFault (s : State) : State := s.halt (.decodeFault s.pc s.ir)

/-- OperandFault: reports the pc, the opcode, the position and the operand byte and halts; nothing else changes
(60_exceptions.md R202; 40_engine.md R107). -/
def State.operandFault (s : State) (p : Position) (v : Byte) : State := s.halt (.operandFault s.pc s.ir p v)

/-- The spec's cause code of a fault report; HLT and HostStop have none (60_exceptions.md R204). -/
def HaltReason.faultCode : HaltReason → Option Nat
  | .none => Option.none
  | .hlt _ => Option.none
  | .decodeFault _ _ => some 1
  | .operandFault _ _ _ _ => some 2
  | .hostStop => Option.none

/-! ## The interrupt controller -/

/-- The interrupt lines, lowest number first. -/
def Line.all : List Line := [0, 1, 2, 3, 4, 5, 6, 7]

/-- lowest_set_bit(v), with no answer for v = 0 (00_scope.md R8). -/
def lowestSetBit (v : Byte) : Option Line := Line.all.find? fun i => v.getLsbD i.val

/-- The line an interrupt is taken on at the start of a tick, if any: the lowest pending enabled line while ie = true
(60_exceptions.md R205). -/
def State.pendingLine (s : State) : Option Line := if s.ie then lowestSetBit (s.reg IS &&& s.reg IM) else none

/-- A byte with one bit cleared: v & ~(1 << i) (60_exceptions.md R207). -/
def clearBit (v : Byte) (i : Line) : Byte := v &&& ~~~(1#8 <<< i.val)

/-- The registers in ascending order (60_exceptions.md R209). -/
def Reg.ascending : List Reg := [0, 1, 2, 3, 4, 5, 6, 7]

/-- The registers in descending order (45_system.md R181). -/
def Reg.descending : List Reg := [7, 6, 5, 4, 3, 2, 1, 0]

/-- Interrupt entry on line i: the steps of 60_exceptions.md R206 to R210 in that order. ie <- false; the line's IS bit is
cleared; pc is pushed; R0 to R7 are pushed, each read after its own decrement; pc is loaded from the vector table as memory
stands after the pushes (D5 and D27, log entries 6 and 18). -/
def State.takeInterrupt (s : State) (i : Line) : State :=
  let s1 := s.setIe false
  let s2 := s1.setReg IS (clearBit (s1.reg IS) i)
  let s3 := s2.push (·.pc)
  let s4 := Reg.ascending.foldl (fun t k => t.push (·.reg k)) s3
  s4.setPc (s4.memRead (vectorAddress i))

/-- Return from interrupt: pop R7 down to R0, pop pc, ie <- true (45_system.md R181). -/
def State.returnFromInterrupt (s : State) : State :=
  let s1 := Reg.descending.foldl (fun t k => t.popReg k) s
  s1.popPc.setIe true

end Sys2Proof.Machine
end

