-- ==== Sys2Proof/Machine/Operands.lean ====
section
/-! DEFINITION. The operand forms: a register operand byte with its check. An immediate operand is the byte itself
(30_encoding.md R73) and needs no operation. -/

namespace Sys2Proof.Machine

/-- The register an operand byte names, if it names one: the whole byte is compared, nothing is masked
(30_encoding.md R72; D4). -/
def regOf (b : Byte) : Option Reg := if h : b.toNat < 8 then some ⟨b.toNat, h⟩ else none

/-- Go on with the register that an operand byte names; a byte above 7 raises OperandFault instead, before the instruction
changes any state (40_engine.md R104; 60_exceptions.md R202). A meaning with two register operands nests it, position 1
outermost, so that position 1 is reported first. -/
def withReg (p : Position) (b : Byte) (s : State) (k : Reg → Host.Outcome State Fault Refusal) :
    Host.Outcome State Fault Refusal :=
  match regOf b with
  | some r => k r
  | none => .next (s.operandFault p b)

end Sys2Proof.Machine
end

