-- ==== Sys2Proof/Machine/AluData.lean ====
section
/-! DEFINITION. The ALU, and the meanings of LDI, ADD, MUL and CMP (41_alu_data.md). -/

namespace Sys2Proof.Machine

/-- ALU.ADD(a, b) = (a + b) mod 256; the carry is discarded (41_alu_data.md R121). -/
def aluAdd (a b : Byte) : Byte := BitVec.ofNat 8 (a.toNat + b.toNat)

/-- ALU.MUL(a, b) = (a * b) mod 256: the low byte of the product (41_alu_data.md R122). -/
def aluMul (a b : Byte) : Byte := BitVec.ofNat 8 (a.toNat * b.toNat)

/-- LDI (41_alu_data.md R123). -/
def execLdi (op1 imm : Byte) (s : State) : Host.Outcome State Fault Refusal :=
  withReg .one op1 s fun a => .next ((s.setReg a imm).advance 3)

/-- ADD (41_alu_data.md R124). -/
def execAdd (op1 op2 : Byte) (s : State) : Host.Outcome State Fault Refusal :=
  withReg .one op1 s fun a => withReg .two op2 s fun b =>
    .next ((s.setReg a (aluAdd (s.reg a) (s.reg b))).advance 3)

/-- MUL (41_alu_data.md R125). -/
def execMul (op1 op2 : Byte) (s : State) : Host.Outcome State Fault Refusal :=
  withReg .one op1 s fun a => withReg .two op2 s fun b =>
    .next ((s.setReg a (aluMul (s.reg a) (s.reg b))).advance 3)

/-- CMP, the bitwise-subset test; it writes eq and no register (41_alu_data.md R126). -/
def execCmp (op1 op2 : Byte) (s : State) : Host.Outcome State Fault Refusal :=
  withReg .one op1 s fun a => withReg .two op2 s fun b =>
    .next ((s.setEq (subsetFlag (s.reg a) (s.reg b))).advance 3)

end Sys2Proof.Machine
end

