-- ==== Sys2Proof/Machine/Control.lean ====
section
/-! DEFINITION. The meanings of CALL, RET, JMP, JEQ and JNE (44_control.md). -/

namespace Sys2Proof.Machine

/-- CALL: push the address after the instruction, then jump to R[op1], read after the push (44_control.md R161; D5). -/
def execCall (op1 : Byte) (s : State) : Host.Outcome State Fault Refusal :=
  withReg .one op1 s fun a =>
    let t := s.push (fun u => u.pc + 2)
    .next (t.setPc (t.reg a))

/-- RET: pop the pc (44_control.md R162). -/
def execRet (s : State) : Host.Outcome State Fault Refusal := .next s.popPc

/-- JMP (44_control.md R163). -/
def execJmp (op1 : Byte) (s : State) : Host.Outcome State Fault Refusal :=
  withReg .one op1 s fun a => .next (s.setPc (s.reg a))

/-- JEQ: taken when eq is true; the operand is checked in both cases (44_control.md R166; D22). -/
def execJeq (op1 : Byte) (s : State) : Host.Outcome State Fault Refusal :=
  withReg .one op1 s fun a => .next (if s.eq = .isTrue then s.setPc (s.reg a) else s.advance 2)

/-- JNE: taken when eq is false, explicitly, not merely unset; the operand is checked in both cases
(44_control.md R167; D22). -/
def execJne (op1 : Byte) (s : State) : Host.Outcome State Fault Refusal :=
  withReg .one op1 s fun a => .next (if s.eq = .isFalse then s.setPc (s.reg a) else s.advance 2)

end Sys2Proof.Machine
end

