-- ==== Sys2Proof/Machine/Output.lean ====
section
/-! DEFINITION. The meanings of PRN and PRA (42_output.md), and the text of an event as far as the spec gives it. -/

namespace Sys2Proof.Machine

/-- The text of Num(v): the unsigned decimal numeral of v, with no sign and no leading zeros (42_output.md R140). -/
def numText (v : Byte) : String := toString v.toNat

/-- The character of Chr(v): the ASCII character with that code for v up to 0x7F; for higher bytes the spec gives none, the
rendering is the host's (42_output.md R141; D15, log entry 16). -/
def chrText (v : Byte) : Option Char := if v.toNat < 128 then some (Char.ofNat v.toNat) else none

/-- The text of an event, where the spec gives one. What stands between events is the host's (D15). -/
def OutEvent.text : OutEvent → Option String
  | .num v => some (numText v)
  | .chr v => (chrText v).map toString

/-- PRN: append Num(R[op1]) (42_output.md R140, R142). -/
def execPrn (op1 : Byte) (s : State) : Host.Outcome State Fault Refusal :=
  withReg .one op1 s fun a => .next ((s.emit (.num (s.reg a))).advance 2)

/-- PRA: append Chr(R[op1]), for every byte value (42_output.md R141, R142). -/
def execPra (op1 : Byte) (s : State) : Host.Outcome State Fault Refusal :=
  withReg .one op1 s fun a => .next ((s.emit (.chr (s.reg a))).advance 2)

end Sys2Proof.Machine
end

