-- ==== Sys2Proof/Machine/StackMemory.lean ====
section
/-! DEFINITION. The meanings of PUSH, POP and ST (43_stack_memory.md). -/

namespace Sys2Proof.Machine

/-- PUSH: R[op1] is read after the decrement of SP (43_stack_memory.md R150; D5). -/
def execPush (op1 : Byte) (s : State) : Host.Outcome State Fault Refusal :=
  withReg .one op1 s fun a => .next ((s.push (·.reg a)).advance 2)

/-- POP: SP is read for its increment after R[op1] is written (43_stack_memory.md R151; D5). -/
def execPop (op1 : Byte) (s : State) : Host.Outcome State Fault Refusal :=
  withReg .one op1 s fun a => .next ((s.popReg a).advance 2)

/-- ST: the address is R[op1], the value R[op2]; any address is allowed (43_stack_memory.md R152). -/
def execSt (op1 op2 : Byte) (s : State) : Host.Outcome State Fault Refusal :=
  withReg .one op1 s fun a => withReg .two op2 s fun b =>
    .next ((s.memWrite (s.reg a) (s.reg b)).advance 3)

end Sys2Proof.Machine
end

