-- ==== Sys2Proof/Machine/System.lean ====
section
/-! DEFINITION. The meanings of NOP, IRET and HLT (45_system.md). -/

namespace Sys2Proof.Machine

/-- NOP: the pc advances by the table's width 1 (45_system.md R180; 90_conflicts.md C2). -/
def execNop (s : State) : Host.Outcome State Fault Refusal := .next (s.advance 1)

/-- IRET: always performs its nine pops, with no check that an interrupt is active (45_system.md R181; D28). -/
def execIret (s : State) : Host.Outcome State Fault Refusal := .next s.returnFromInterrupt

/-- HLT: the clock halts with reason HLT(pc) and the pc is not advanced (45_system.md R182; D12). -/
def execHlt (s : State) : Host.Outcome State Fault Refusal := .next (s.halt (.hlt s.pc))

end Sys2Proof.Machine
end

