-- ==== Sys2Proof/Machine/Dispatch.lean ====
section
/-! DEFINITION. The dispatch: one arm per instruction, each one direct call of its meaning (40_engine.md R105). The state
given to exec is the one after the opcode fetch, with pc still the address of the opcode. -/

namespace Sys2Proof.Machine

def exec (i : Instr) (s : State) : Host.Outcome State Fault Refusal :=
  match i with
  | .nop => Sys2Proof.Machine.execNop s
  | .ldi op1 imm => Sys2Proof.Machine.execLdi op1 imm s
  | .add op1 op2 => Sys2Proof.Machine.execAdd op1 op2 s
  | .mul op1 op2 => Sys2Proof.Machine.execMul op1 op2 s
  | .cmp op1 op2 => Sys2Proof.Machine.execCmp op1 op2 s
  | .prn op1 => Sys2Proof.Machine.execPrn op1 s
  | .pra op1 => Sys2Proof.Machine.execPra op1 s
  | .push op1 => Sys2Proof.Machine.execPush op1 s
  | .pop op1 => Sys2Proof.Machine.execPop op1 s
  | .call op1 => Sys2Proof.Machine.execCall op1 s
  | .ret => Sys2Proof.Machine.execRet s
  | .jmp op1 => Sys2Proof.Machine.execJmp op1 s
  | .jeq op1 => Sys2Proof.Machine.execJeq op1 s
  | .jne op1 => Sys2Proof.Machine.execJne op1 s
  | .st op1 op2 => Sys2Proof.Machine.execSt op1 op2 s
  | .iret => Sys2Proof.Machine.execIret s
  | .hlt => Sys2Proof.Machine.execHlt s

end Sys2Proof.Machine
end

