-- ==== Sys2Proof/Machine/Environment.lean ====
section
/-! DEFINITION. What acts on the machine from outside, between ticks: the timer source and the host's three calls
(60_exceptions.md R215, R231, R232). -/

namespace Sys2Proof.Machine

/-- Do something that only a running machine can do; with the clock stopped or halted there is no step
(40_engine.md R100, R110). -/
def whileRunning (s : State) (k : Host.Outcome State Fault Refusal) : Host.Outcome State Fault Refusal :=
  match s.clock with
  | .running => k
  | .stopped => .fault .clockStopped
  | .halted => .fault .clockHalted

/-- The timer source's update, IS <- IS | 0x01 (60_exceptions.md R215). -/
def State.raiseTimer (s : State) : State := s.setReg IS (s.reg IS ||| (1#8 <<< timerLine.val))

/-- The timer source fires; it runs only while the clock does (60_exceptions.md R215). -/
def envTimer (s : State) : Host.Outcome State Fault Refusal := whileRunning s (.next s.raiseTimer)

/-- The host's poke(address, value): a memory write, only while the clock is stopped (60_exceptions.md R231; D19). -/
def envPoke (a v : Byte) (s : State) : Host.Outcome State Fault Refusal :=
  match s.clock with
  | .stopped => .next (s.memWrite a v)
  | .running => .refused (.pokeAfterStart .running)
  | .halted => .refused (.pokeAfterStart .halted)

/-- The host's startClock(): only from stopped (60_exceptions.md R231; D19). -/
def envStartClock (s : State) : Host.Outcome State Fault Refusal :=
  match s.clock with
  | .stopped => .next s.start
  | .running => .refused (.startAfterStart .running)
  | .halted => .refused (.startAfterStart .halted)

/-- The host's stopClock(), at any time between ticks: halts with reason HostStop if not already halted
(60_exceptions.md R231, R232). -/
def envStopClock (s : State) : Host.Outcome State Fault Refusal :=
  match s.clock with
  | .stopped => .next (s.halt .hostStop)
  | .running => .next (s.halt .hostStop)
  | .halted => .next s

end Sys2Proof.Machine
end

