-- ==== Sys2Proof/Machine/Engine.lean ====
section
/-! DEFINITION. The execution engine: the fetch, the tick, and the choice of who acts next (40_engine.md). It is written
over an arbitrary OPCODE_MAP, the spec's open parameter (log entry 1). -/

namespace Sys2Proof.Machine

/-- The opcode fetch: ir <- MemRead(pc) (40_engine.md R101; 10_state.md R31). -/
def State.fetchOpcode (s : State) : State := s.setIr (s.memRead s.pc)

/-- The fetched bytes, given to the decoder: the opcode in ir and the bytes at pc + 1 and pc + 2 modulo 256
(40_engine.md R103; 20_memory.md R57, R58). An instruction takes as many of them as its width says; reads have no side
effects, so reading them all is not observable (log entry 14). -/
def State.fetchedBytes (s : State) : List Byte := [s.ir, s.memRead (s.pc + 1), s.memRead (s.pc + 2)]

/-- A tick with no interrupt to enter: fetch, decode, then execute, or DecodeFault (40_engine.md R101). The register
operands are checked inside the meaning, before it changes anything (R104). -/
def fetchAndRun (m : OpcodeMap) (s : State) : Host.Outcome State Fault Refusal :=
  let s1 := s.fetchOpcode
  match decodeWith m s1.fetchedBytes with
  | .ok (i, _) => exec i s1
  | .error _ => .next s1.decodeFault

/-- The tick: the interrupt check first, and an entry ends the tick (40_engine.md R101, R102; 60_exceptions.md R205,
R211). -/
def tick (m : OpcodeMap) (s : State) : Host.Outcome State Fault Refusal :=
  match s.pendingLine with
  | some i => .next (s.takeInterrupt i)
  | none => fetchAndRun m s

/-- Who acts next: the schedule's first entry, and a tick when the schedule is empty (log entry 9). -/
def State.nextInput (s : State) : Input := s.inputs.headD .tick

/-- The state once the schedule's first entry is taken. -/
def State.afterInput (s : State) : State := s.setInputs s.inputs.tail

/-- One action: a tick, which needs a running clock, or an action of the environment (40_engine.md R100, R109;
60_exceptions.md R215, R231, R232). -/
def act (m : OpcodeMap) : Input → State → Host.Outcome State Fault Refusal
  | .tick, s => whileRunning s (tick m s)
  | .timer, s => envTimer s
  | .poke a v, s => envPoke a v s
  | .startClock, s => envStartClock s
  | .stopClock, s => envStopClock s

/-- One step under an opcode map: what the schedule says acts next acts, as one atomic transition (20_memory.md R59). -/
def stepWith (m : OpcodeMap) (s : State) : Host.Outcome State Fault Refusal := act m s.nextInput s.afterInput

/-- The state with three bytes placed at the pc (modulo 256) so that the very next step runs them: the clock runs, no
action of the environment comes first, and no interrupt is taken first (log entry 12). -/
def State.placeAtPc (s : State) (b0 b1 b2 : Byte) : State :=
  let t := ((s.memWrite s.pc b0).memWrite (s.pc + 1) b1).memWrite (s.pc + 2) b2
  { t with
    clock := .running
    haltReason := .none
    ie := if t.pendingLine.isSome then false else t.ie
    inputs := if t.inputs.isEmpty then [] else .tick :: t.inputs }

/-- Place the instruction of a word of spec/opcode_table.json at the pc. -/
def State.placeTableWord (s : State) (nbits w : Nat) : State :=
  match tableBytes nbits w with
  | [b0, b1, b2] => s.placeAtPc b0 b1 b2
  | _ => s

end Sys2Proof.Machine
end

