-- ==== Sys2Proof/Machine/Step.lean ====
section
/-! DEFINITION. The step function under the model's opcode map, and the placing of an instruction where the next step
fetches. -/

namespace Sys2Proof.Machine

/-- One step of the machine: a tick, or one action of the environment (Engine.lean). -/
def step (s : State) : Host.Outcome State Fault Refusal := stepWith opcodeMap s

/-- The state with an instruction stored where step fetches its next instruction, and with all that this takes
(log entry 12). -/
def State.withFetchWord (s : State) (nbits w : Nat) : State := s.placeTableWord nbits w

end Sys2Proof.Machine
end

