-- ==== Sys2Proof/Safety.lean ====
section
/-! DEFINITION. What claims about the machine are stated in: frames, the registers and the memory byte an instruction may
write, the halt report, and the machine's invariant. -/

namespace Sys2Proof.Machine

/-! ## Frames -/

/-- Every register outside the list holds after what it held before. -/
def SameRegsExcept (rs : List Reg) (s t : State) : Prop := ∀ r, r ∉ rs → t.reg r = s.reg r

/-- Every byte of memory outside the listed addresses reads after as it read before. -/
def SameMemExcept (as : List Byte) (s t : State) : Prop := ∀ a, a ∉ as → t.memRead a = s.memRead a

/-- The rest of the state, beside registers, pc, eq, out and memory, is unchanged. -/
structure SameControl (s t : State) : Prop where
  ir : t.ir = s.ir
  ie : t.ie = s.ie
  clock : t.clock = s.clock
  haltReason : t.haltReason = s.haltReason
  inputs : t.inputs = s.inputs

/-- Everything but registers, pc and memory is unchanged. -/
structure SameBesideData (s t : State) : Prop extends SameControl s t where
  eq : t.eq = s.eq
  out : t.out = s.out

/-! ## What an instruction may write (10_state.md R27; 20_memory.md R51) -/

/-- The register operand byte of an instruction's destination together with the registers its handler moves, as
10_state.md R27 lists them in its column "writes". -/
def regsWritten : Instr → List Byte
  | .nop => []
  | .ldi a _ => [a]
  | .add a _ => [a]
  | .mul a _ => [a]
  | .cmp _ _ => []
  | .prn _ => []
  | .pra _ => []
  | .push _ => [7]
  | .pop a => [a, 7]
  | .call _ => [7]
  | .ret => [7]
  | .jmp _ => []
  | .jeq _ => []
  | .jne _ => []
  | .st _ _ => []
  | .iret => [0, 1, 2, 3, 4, 5, 6, 7]
  | .hlt => []

/-- The address an instruction stores its one byte to, in the state it runs in: SP - 1 for PUSH and CALL, R[op1] for ST,
none for every other instruction (20_memory.md R51). -/
def storeAddress (i : Instr) (s : State) : Option Byte :=
  match i with
  | .push _ => some (s.sp - 1)
  | .call _ => some (s.sp - 1)
  | .st a _ => (regOf a).map s.reg
  | .nop => none
  | .ldi _ _ => none
  | .add _ _ => none
  | .mul _ _ => none
  | .cmp _ _ => none
  | .prn _ => none
  | .pra _ => none
  | .pop _ => none
  | .ret => none
  | .jmp _ => none
  | .jeq _ => none
  | .jne _ => none
  | .iret => none
  | .hlt => none

/-! ## The end of a run -/

/-- A run has ended when the clock is halted (40_engine.md R110). -/
def State.Ended (s : State) : Prop := s.clock = .halted

/-- A run has ended in success at an address when its reason is HLT(addr); a fault halt is an end and no success
(40_engine.md R110; 92_eei_decisions.md D30). -/
def State.Succeeded (s : State) (addr : Byte) : Prop := s.clock = .halted ∧ s.haltReason = .hlt addr

/-! ## The machine's invariant -/

/-- How far an operand byte stands from its opcode byte (30_encoding.md R71). -/
def Position.offset : Position → Byte
  | .one => 1
  | .two => 2

/-- The halt report tells the truth about the halted machine: the address is the pc, the opcode is in ir and in memory at
that address, HLT is reported for an HLT opcode, DecodeFault for an opcode with no handler, and OperandFault for an operand
byte above 7 that stands where the report says (10_state.md R39; 60_exceptions.md R201, R202). -/
def ReportTrue (m : OpcodeMap) (s : State) : Prop :=
  match s.haltReason with
  | .none => True
  | .hlt a => s.pc = a ∧ s.ir = s.memRead a ∧ dispatch m s.ir = some .hlt
  | .decodeFault a o => s.pc = a ∧ s.ir = o ∧ s.memRead a = o ∧ dispatch m o = none
  | .operandFault a o p v => s.pc = a ∧ s.ir = o ∧ s.memRead a = o ∧ s.memRead (a + Position.offset p) = v ∧ 7 < v.toNat
  | .hostStop => True

/-- What holds of every machine state that a construction and any steps lead to. -/
structure State.Inv (m : OpcodeMap) (s : State) : Prop where
  /-- Memory is in canonical form: 256 addresses, each byte represented once. -/
  memWf : s.mem.wf = true
  /-- The clock is halted exactly when a reason is recorded (10_state.md R38, R39). -/
  haltedIff : s.clock = .halted ↔ s.haltReason ≠ .none
  /-- The recorded reason is true of the state. -/
  report : ReportTrue m s
  /-- Before startClock the machine is as constructed, but for memory and the schedule (70_reset_and_hazards.md R240). -/
  unstarted : s.clock = .stopped → ∃ sp, s = (State.construct sp s.mem).setInputs s.inputs

end Sys2Proof.Machine
end

