-- ==== Sys2Proof/Certificates/Slice0/Obligations.lean ====
section
/-! DEFINITION. The statements about the machine, each one a Prop. Every statement that speaks of an opcode map holds for every
map (or every map that meets 30_encoding.md R76): none rests on the model's choice of map. A register operand is written
`regByte a` with a : Reg, which covers every operand byte the encoding admits; bytes above 7 have a statement of their own. -/

open Sys2Proof Sys2Proof.Machine

/-! ## Encoding -/

/-- 30_encoding.md R70, R71, R74, R76, R78: decoding an encoded instruction gives it back with every operand byte and leaves
the bytes after it, under every map that meets R76; and under the map the model runs with. -/
def Obligations.DecodeInvertsEncode : Prop :=
  (∀ m : OpcodeMap, m.Valid → ∀ (i : Instr) (rest : List Byte), decodeWith m (encodeWith m i ++ rest) = .ok (i, rest)) ∧
  ∀ i : Instr, i.wellFormed = true → decode (encode i) = .ok (i, [])

/-- 30_encoding.md R71, R78: the other direction: what decodes was the encoding of what it decodes to. -/
def Obligations.EncodeInvertsDecode : Prop :=
  ∀ (m : OpcodeMap) (bs rest : List Byte) (i : Instr), decodeWith m bs = .ok (i, rest) → encodeWith m i ++ rest = bs

/-- 30_encoding.md R78, R80: the opcode byte alone decides the mnemonic and, by its width, how many operand bytes are taken,
in order; a byte that no mnemonic is assigned has no handler. -/
def Obligations.OpcodeByteDecides : Prop :=
  ∀ m : OpcodeMap, m.Valid → ∀ b c d : Byte,
    (∀ x : Mnemonic, m.byteOf x = b → ∃ i : Instr,
      decodeWith m [b, c, d] = .ok (i, [c, d].drop (x.width - 1)) ∧ i.mnemonic = x ∧
      i.operandBytes = [c, d].take (x.width - 1)) ∧
    ((∀ x : Mnemonic, m.byteOf x ≠ b) → decodeWith m [b, c, d] = .error (.noHandler b))

/-- 30_encoding.md R79: 239 of the 256 bytes have no handler, 0xFF among them. -/
def Obligations.IllegalOpcodeCount : Prop :=
  ∀ m : OpcodeMap, m.Valid →
    ((List.range 256).filter fun n => (dispatch m (BitVec.ofNat 8 n)).isNone).length = 239 ∧ dispatch m 0xFF = none

/-- 30_encoding.md R71, R75: words written out bit by bit from the spec's encodings, one per family, decode to the
instructions they stand for under the published table, and both tables the spec lists meet R76. The published bytes are the
spec's default for an OPEN parameter (92_eei_decisions.md D3; log entry 1), not the source's. -/
def Obligations.PublishedWordsDecode : Prop :=
  OpcodeMap.published.Valid ∧ OpcodeMap.earlierEdition.Valid ∧
  decodeWith .published [0b10000010#8, 0b00000010#8, 0b11001000#8] = .ok (.ldi 2 200, []) ∧
  decodeWith .published [0b10100111#8, 0b00000000#8, 0b00000001#8] = .ok (.cmp 0 1, []) ∧
  decodeWith .published [0b01000111#8, 0b00000110#8] = .ok (.prn 6, []) ∧
  decodeWith .published [0b10000100#8, 0b00000010#8, 0b00000011#8] = .ok (.st 2 3, []) ∧
  decodeWith .published [0b01010000#8, 0b00000001#8] = .ok (.call 1, []) ∧
  decodeWith .published [0b00010011#8] = .ok (.iret, []) ∧
  decodeWith .published [0b11111111#8] = .error (.noHandler 0xFF)

/-! ## The engine -/

/-- 40_engine.md R104, 60_exceptions.md R202, R204: the first register operand byte above 7, position 1 first, raises
OperandFault with code 2: only clock and halt_reason change, in every instruction that has a register operand. All of this
is the spec's own choice in 92_eei_decisions.md: the fault, its check and its order are D4 and D22 (log entry 7), that pc
and ir stay, ir holding the fetched opcode, is D13 (log entry 15), and the code 2 is D14 (log entry 8). -/
def Obligations.FirstBadOperandFaults : Prop :=
  (∀ (imm : Byte) (f : Byte → Instr),
    f ∈ [Instr.prn, Instr.pra, Instr.push, Instr.pop, Instr.call, Instr.jmp, Instr.jeq, Instr.jne, (Instr.ldi · imm)] →
    ∀ (a : Byte) (s : State), 7 < a.toNat →
      exec (f a) s = .next { s with clock := .halted, haltReason := .operandFault s.pc s.ir .one a }) ∧
  (∀ f : Byte → Byte → Instr, f ∈ [Instr.add, Instr.mul, Instr.cmp, Instr.st] → ∀ (a b : Byte) (s : State),
    (7 < a.toNat →
      exec (f a b) s = .next { s with clock := .halted, haltReason := .operandFault s.pc s.ir .one a }) ∧
    (a.toNat ≤ 7 → 7 < b.toNat →
      exec (f a b) s = .next { s with clock := .halted, haltReason := .operandFault s.pc s.ir .two b })) ∧
  ∀ (pc op v : Byte) (p : Position), (HaltReason.operandFault pc op p v).faultCode = some 2

/-- 40_engine.md R101, R105: when a tick is due on a running clock, no interrupt is to be entered, and the bytes at pc,
pc + 1 and pc + 2 decode to an instruction, the step is that instruction's meaning at the state with the opcode byte in ir
and the schedule moved on; and step is the general step under the model's map. -/
def Obligations.StepRunsDecodedInstruction : Prop :=
  (∀ (m : OpcodeMap) (s : State) (i : Instr) (rest : List Byte),
    s.nextInput = .tick → s.clock = .running → s.pendingLine = none →
    decodeWith m [s.memRead s.pc, s.memRead (s.pc + 1), s.memRead (s.pc + 2)] = .ok (i, rest) →
    stepWith m s = exec i { s with ir := s.memRead s.pc, inputs := s.inputs.tail }) ∧
  ∀ s : State, step s = stepWith opcodeMap s

/-- 20_memory.md R57, R58: an instruction whose encoding stands at pc, pc + 1, ... modulo 256 is the one the step runs,
under every map that meets R76. That an instruction runs across 0xFF, its addresses wrapping modulo 256, is the spec's own
choice (92_eei_decisions.md D2; log entry 5). -/
def Obligations.StepRunsEncodedBytes : Prop :=
  ∀ m : OpcodeMap, m.Valid → ∀ (s : State) (i : Instr),
    s.nextInput = .tick → s.clock = .running → s.pendingLine = none →
    (∀ (k : Nat) (h : k < (encodeWith m i).length), s.memRead (s.pc + BitVec.ofNat 8 k) = (encodeWith m i)[k]) →
    stepWith m s = exec i { s with ir := m.byteOf i.mnemonic, inputs := s.inputs.tail }

/-- 40_engine.md R100, R110: a tick or a timer event that is due on a clock that does not run has no step: the step stops by
name. The names are the model's (log entries 8 and 10). -/
def Obligations.NoStepUnlessRunning : Prop :=
  ∀ (m : OpcodeMap) (s : State), s.nextInput = .tick ∨ s.nextInput = .timer →
    (s.clock = .stopped → stepWith m s = .fault .clockStopped) ∧
    (s.clock = .halted → stepWith m s = .fault .clockHalted)

/-- 40_engine.md R110, 60_exceptions.md R232, R235: a halted machine never changes again: the one step it can take is
another stopClock of the host, which only moves the schedule on (log entry 20). -/
def Obligations.HaltedIsFinal : Prop :=
  ∀ (m : OpcodeMap) (s t : State), s.clock = .halted → stepWith m s = .next t →
    s.nextInput = .stopClock ∧ t = { s with inputs := s.inputs.tail }

/-- 40_engine.md R102, R110: a running machine keeps running with its halt reason untouched, or halts for one of the listed
reasons: an HLT at pc, a DecodeFault of the byte at pc, an OperandFault of the instruction at pc, or the host's stopClock. -/
def Obligations.RunEndsOnlyAsListed : Prop :=
  ∀ (m : OpcodeMap) (s t : State), s.clock = .running → stepWith m s = .next t →
    (t.clock = .running ∧ t.haltReason = s.haltReason) ∨
    (t.clock = .halted ∧
      ((t.haltReason = .hlt s.pc ∧ s.nextInput = .tick ∧ dispatch m (s.memRead s.pc) = some .hlt) ∨
       (t.haltReason = .decodeFault s.pc (s.memRead s.pc) ∧ s.nextInput = .tick ∧
        dispatch m (s.memRead s.pc) = none) ∨
       (∃ (p : Position) (v : Byte), t.haltReason = .operandFault s.pc (s.memRead s.pc) p v ∧ s.nextInput = .tick ∧
        7 < v.toNat ∧ v = s.memRead (s.pc + Position.offset p)) ∨
       (t.haltReason = .hostStop ∧ s.nextInput = .stopClock)))

/-- 40_engine.md R102, R107, 60_exceptions.md R201, R202: every tick of a running machine completes with a next state,
whatever the registers and memory hold: faults end the run in an orderly way, and nothing is refused. -/
def Obligations.EveryTickCompletes : Prop :=
  ∀ (m : OpcodeMap) (s : State), s.nextInput = .tick → s.clock = .running → ∃ t, stepWith m s = .next t

/-- 60_exceptions.md R201, R204: fetching a byte with no handler halts with DecodeFault(pc, byte), code 1; ir holds the byte
and nothing else changes but the schedule. The code and the ir left are the spec's own choices D14 and D13 (log entries 8
and 15). -/
def Obligations.DecodeFaultHalts : Prop :=
  (∀ (m : OpcodeMap) (s : State), s.nextInput = .tick → s.clock = .running → s.pendingLine = none →
    (∀ x : Mnemonic, m.byteOf x ≠ s.memRead s.pc) →
    stepWith m s = .next { s with
      ir := s.memRead s.pc, clock := .halted, haltReason := .decodeFault s.pc (s.memRead s.pc),
      inputs := s.inputs.tail }) ∧
  ∀ addr opcode : Byte, (HaltReason.decodeFault addr opcode).faultCode = some 1

/-- 10_state.md R31: ir is written before it is read in every tick that fetches: what it held before makes no difference to
what such a tick leaves. -/
def Obligations.IrIsNotObservable : Prop :=
  ∀ (m : OpcodeMap) (s : State) (x : Byte), s.nextInput = .tick → s.pendingLine = none →
    stepWith m { s with ir := x } = stepWith m s

/-! ## The instructions: each completes on every state and every legal operand, with its result and its frame -/

/-- 45_system.md R180 (NOP). -/
def Obligations.NopOnlyAdvances : Prop :=
  ∀ s : State, ∃ t, exec .nop s = .next t ∧ t.pc = s.pc + 1 ∧
    SameRegsExcept [] s t ∧ SameMemExcept [] s t ∧ SameBesideData s t

/-- 41_alu_data.md R123 (LDI): any register, R5, R6 and R7 included, and any immediate. -/
def Obligations.LdiLoadsImmediate : Prop :=
  ∀ (a : Reg) (imm : Byte) (s : State), ∃ t, exec (.ldi (regByte a) imm) s = .next t ∧
    t.reg a = imm ∧ t.pc = s.pc + 3 ∧ SameRegsExcept [a] s t ∧ SameMemExcept [] s t ∧ SameBesideData s t

/-- 41_alu_data.md R121 (ADD): modulo 256, the carry recorded nowhere. -/
def Obligations.AddWrapsModulo256 : Prop :=
  ∀ (a b : Reg) (s : State), ∃ t, exec (.add (regByte a) (regByte b)) s = .next t ∧
    (t.reg a).toNat = ((s.reg a).toNat + (s.reg b).toNat) % 256 ∧ t.pc = s.pc + 3 ∧
    SameRegsExcept [a] s t ∧ SameMemExcept [] s t ∧ SameBesideData s t

/-- 41_alu_data.md R122 (MUL): the low byte of the unsigned product, which is also the low byte of the signed one. -/
def Obligations.MulKeepsLowByte : Prop :=
  ∀ (a b : Reg) (s : State), ∃ t, exec (.mul (regByte a) (regByte b)) s = .next t ∧
    (t.reg a).toNat = ((s.reg a).toNat * (s.reg b).toNat) % 256 ∧
    t.reg a = BitVec.ofInt 8 ((s.reg a).toInt * (s.reg b).toInt) ∧ t.pc = s.pc + 3 ∧
    SameRegsExcept [a] s t ∧ SameMemExcept [] s t ∧ SameBesideData s t

/-- 41_alu_data.md R126 (CMP): eq becomes true exactly when every bit set in the first register is set in the second, and
false otherwise; nothing else changes but pc. -/
def Obligations.CmpIsSubsetTest : Prop :=
  ∀ (a b : Reg) (s : State), ∃ t, exec (.cmp (regByte a) (regByte b)) s = .next t ∧
    ((∀ k < 8, (s.reg a).getLsbD k = true → (s.reg b).getLsbD k = true) → t.eq = .isTrue) ∧
    ((∃ k < 8, (s.reg a).getLsbD k = true ∧ (s.reg b).getLsbD k = false) → t.eq = .isFalse) ∧
    t.pc = s.pc + 3 ∧ t.out = s.out ∧ SameRegsExcept [] s t ∧ SameMemExcept [] s t ∧ SameControl s t

/-- 42_output.md R140, R142 (PRN). -/
def Obligations.PrnAppendsNumber : Prop :=
  ∀ (a : Reg) (s : State), ∃ t, exec (.prn (regByte a)) s = .next t ∧
    t.out = s.out ++ [.num (s.reg a)] ∧ t.pc = s.pc + 2 ∧ t.eq = s.eq ∧
    SameRegsExcept [] s t ∧ SameMemExcept [] s t ∧ SameControl s t

/-- 42_output.md R141, R142 (PRA): every byte value, those above 0x7F included. -/
def Obligations.PraAppendsCharacter : Prop :=
  ∀ (a : Reg) (s : State), ∃ t, exec (.pra (regByte a)) s = .next t ∧
    t.out = s.out ++ [.chr (s.reg a)] ∧ t.pc = s.pc + 2 ∧ t.eq = s.eq ∧
    SameRegsExcept [] s t ∧ SameMemExcept [] s t ∧ SameControl s t

/-- 43_stack_memory.md R150 (PUSH): the register is read after the decrement, so PUSH R7 stores SP - 1: the spec's reading
D5 (log entry 6). -/
def Obligations.PushStoresBelow : Prop :=
  ∀ (a : Reg) (s : State), s.mem.wf = true → ∃ t, exec (.push (regByte a)) s = .next t ∧
    t.sp = s.sp - 1 ∧ t.memRead (s.sp - 1) = (if a = SP then s.sp - 1 else s.reg a) ∧ t.pc = s.pc + 2 ∧
    SameRegsExcept [SP] s t ∧ SameMemExcept [s.sp - 1] s t ∧ SameBesideData s t

/-- 43_stack_memory.md R151 (POP): SP is read for its increment after the register is written, so POP R7 leaves SP at the
popped byte plus 1: the spec's reading D5 (log entry 6). -/
def Obligations.PopLoadsFromStack : Prop :=
  ∀ (a : Reg) (s : State), ∃ t, exec (.pop (regByte a)) s = .next t ∧
    (a ≠ SP → t.reg a = s.memRead s.sp ∧ t.sp = s.sp + 1) ∧ (a = SP → t.sp = s.memRead s.sp + 1) ∧ t.pc = s.pc + 2 ∧
    SameRegsExcept [a, SP] s t ∧ SameMemExcept [] s t ∧ SameBesideData s t

/-- 43_stack_memory.md R152 (ST): any address, the vector table and program bytes included. -/
def Obligations.StStoresAtRegister : Prop :=
  ∀ (a b : Reg) (s : State), s.mem.wf = true → ∃ t, exec (.st (regByte a) (regByte b)) s = .next t ∧
    t.memRead (s.reg a) = s.reg b ∧ t.pc = s.pc + 3 ∧
    SameRegsExcept [] s t ∧ SameMemExcept [s.reg a] s t ∧ SameBesideData s t

/-- 44_control.md R161 (CALL): the return address is pc + 2 modulo 256, and the target is read after the push, so CALL R7
jumps to SP - 1: the spec's readings D2 and D5 (log entries 5 and 6). -/
def Obligations.CallPushesReturnAddress : Prop :=
  ∀ (a : Reg) (s : State), s.mem.wf = true → ∃ t, exec (.call (regByte a)) s = .next t ∧
    t.sp = s.sp - 1 ∧ t.memRead (s.sp - 1) = s.pc + 2 ∧ t.pc = (if a = SP then s.sp - 1 else s.reg a) ∧
    SameRegsExcept [SP] s t ∧ SameMemExcept [s.sp - 1] s t ∧ SameBesideData s t

/-- 44_control.md R162 (RET): whatever byte is at SP. -/
def Obligations.RetPopsPc : Prop :=
  ∀ s : State, ∃ t, exec .ret s = .next t ∧ t.pc = s.memRead s.sp ∧ t.sp = s.sp + 1 ∧
    SameRegsExcept [SP] s t ∧ SameMemExcept [] s t ∧ SameBesideData s t

/-- 44_control.md R163 (JMP). -/
def Obligations.JmpSetsPc : Prop :=
  ∀ (a : Reg) (s : State), ∃ t, exec (.jmp (regByte a)) s = .next t ∧ t.pc = s.reg a ∧
    SameRegsExcept [] s t ∧ SameMemExcept [] s t ∧ SameBesideData s t

/-- 44_control.md R166 (JEQ): taken when eq is true; not taken when it is false or unset. -/
def Obligations.JeqTakenIffTrue : Prop :=
  ∀ (a : Reg) (s : State), ∃ t, exec (.jeq (regByte a)) s = .next t ∧
    (s.eq = .isTrue → t.pc = s.reg a) ∧ (s.eq = .isFalse → t.pc = s.pc + 2) ∧ (s.eq = .unset → t.pc = s.pc + 2) ∧
    SameRegsExcept [] s t ∧ SameMemExcept [] s t ∧ SameBesideData s t

/-- 44_control.md R167 (JNE): taken when eq is false, explicitly; not taken when it is true or merely unset. -/
def Obligations.JneTakenIffFalse : Prop :=
  ∀ (a : Reg) (s : State), ∃ t, exec (.jne (regByte a)) s = .next t ∧
    (s.eq = .isFalse → t.pc = s.reg a) ∧ (s.eq = .isTrue → t.pc = s.pc + 2) ∧ (s.eq = .unset → t.pc = s.pc + 2) ∧
    SameRegsExcept [] s t ∧ SameMemExcept [] s t ∧ SameBesideData s t

/-- 45_system.md R181 (IRET): with t7 the byte at SP, R7 ends as t7 + 9, Rk for k below 7 is the byte at t7 + 7 - k, pc is
the byte at t7 + 8, and ie becomes true; it runs whether or not an interrupt is active. The pop order around R7 is the
spec's reading D5, the missing check D28 (log entries 6 and 17). -/
def Obligations.IretRestoresFromStack : Prop :=
  ∀ s : State, ∃ t, exec .iret s = .next t ∧
    t.reg 0 = s.memRead (s.memRead s.sp + 7) ∧ t.reg 1 = s.memRead (s.memRead s.sp + 6) ∧
    t.reg 2 = s.memRead (s.memRead s.sp + 5) ∧ t.reg 3 = s.memRead (s.memRead s.sp + 4) ∧
    t.reg 4 = s.memRead (s.memRead s.sp + 3) ∧ t.reg 5 = s.memRead (s.memRead s.sp + 2) ∧
    t.reg 6 = s.memRead (s.memRead s.sp + 1) ∧ t.reg 7 = s.memRead s.sp + 9 ∧
    t.pc = s.memRead (s.memRead s.sp + 8) ∧ t.ie = true ∧ t.eq = s.eq ∧ t.out = s.out ∧ t.ir = s.ir ∧
    t.clock = s.clock ∧ t.haltReason = s.haltReason ∧ t.inputs = s.inputs ∧ SameMemExcept [] s t

/-- 45_system.md R182 (HLT): the clock halts with reason HLT(pc) and nothing else changes. That pc stays is the spec's own
choice (92_eei_decisions.md D12; log entry 15). -/
def Obligations.HltHalts : Prop :=
  ∀ s : State, ∃ t, exec .hlt s = .next t ∧ t.clock = .halted ∧ t.haltReason = .hlt s.pc ∧ t.pc = s.pc ∧ t.ir = s.ir ∧
    t.ie = s.ie ∧ t.eq = s.eq ∧ t.out = s.out ∧ t.inputs = s.inputs ∧ SameRegsExcept [] s t ∧ SameMemExcept [] s t

/-! ## Whole-machine rules -/

/-- 10_state.md R27: the column "writes": no instruction changes a register the table does not list for it, and an
interrupt entry changes only R6 and R7. -/
def Obligations.RegistersWrittenOnlyAsListed : Prop :=
  (∀ (i : Instr) (s t : State), exec i s = .next t → ∀ r : Reg, regByte r ∉ regsWritten i → t.reg r = s.reg r) ∧
  ∀ (s : State) (l : Line), SameRegsExcept [6, 7] s (s.takeInterrupt l)

/-- 20_memory.md R51: an instruction changes no byte of memory but the one at the address it stores to, which exists for
PUSH, CALL and ST alone. -/
def Obligations.MemoryWrittenOnlyWhereListed : Prop :=
  ∀ (i : Instr) (s t : State), exec i s = .next t →
    ∀ c : Byte, storeAddress i s ≠ some c → t.memRead c = s.memRead c

/-- 40_engine.md R106: every well-formed instruction that is no control transfer and no HLT advances pc by its width. -/
def Obligations.PcAdvancesByWidth : Prop :=
  ∀ (i : Instr) (s t : State), i.wellFormed = true →
    i.mnemonic ∉ [Mnemonic.call, .ret, .jmp, .jeq, .jne, .iret, .hlt] → exec i s = .next t →
    t.pc = s.pc + BitVec.ofNat 8 i.mnemonic.width

/-- 10_state.md R23: a line is taken only with its IM bit set; a step that changes IM is a tick that runs LDI, ADD, MUL or
POP with destination R5, or IRET; interrupt entry leaves IM alone. -/
def Obligations.ImWrittenOnlyByInstructions : Prop :=
  (∀ (s : State) (l : Line), s.pendingLine = some l → (s.reg IM).getLsbD l.val = true) ∧
  (∀ (m : OpcodeMap) (s t : State), stepWith m s = .next t → t.reg IM ≠ s.reg IM →
    s.nextInput = .tick ∧ s.pendingLine = none ∧
    ∃ (i : Instr) (rest : List Byte),
      decodeWith m [s.memRead s.pc, s.memRead (s.pc + 1), s.memRead (s.pc + 2)] = .ok (i, rest) ∧
      (i = .iret ∨ i = .pop 5 ∨ ∃ c : Byte, i = .ldi 5 c ∨ i = .add 5 c ∨ i = .mul 5 c)) ∧
  ∀ (s : State) (l : Line), (s.takeInterrupt l).reg IM = s.reg IM

/-- 10_state.md R24: a line is taken only with its IS bit set, and IS has exactly three writers: a tick that runs LDI, ADD,
MUL or POP with destination R6, or IRET; an interrupt entry, which clears the serviced bit; the timer source, which sets
bit 0. -/
def Obligations.IsHasThreeWriters : Prop :=
  (∀ (s : State) (l : Line), s.pendingLine = some l → (s.reg IS).getLsbD l.val = true) ∧
  ∀ (m : OpcodeMap) (s t : State), stepWith m s = .next t → t.reg IS ≠ s.reg IS →
    (s.nextInput = .tick ∧ s.pendingLine = none ∧
      ∃ (i : Instr) (rest : List Byte),
        decodeWith m [s.memRead s.pc, s.memRead (s.pc + 1), s.memRead (s.pc + 2)] = .ok (i, rest) ∧
        (i = .iret ∨ i = .pop 6 ∨ ∃ c : Byte, i = .ldi 6 c ∨ i = .add 6 c ∨ i = .mul 6 c)) ∨
    (s.nextInput = .tick ∧ ∃ l : Line, s.pendingLine = some l ∧
      ∀ k < 8, (t.reg IS).getLsbD k = ((s.reg IS).getLsbD k && decide (k ≠ l.val))) ∨
    (s.nextInput = .timer ∧ ∀ k < 8, (t.reg IS).getLsbD k = ((s.reg IS).getLsbD k || decide (k = 0)))

/-- 10_state.md R33: ie is true at reset; an interrupt entry makes it false and IRET makes it true; no other instruction
reads it (the run with another ie differs in ie alone) or writes it, and no step changes it otherwise; while it is false no
interrupt is taken. -/
def Obligations.IeGatesInterrupts : Prop :=
  State.reset.ie = true ∧
  (∀ (s : State) (l : Line), (s.takeInterrupt l).ie = false) ∧
  (∀ s t : State, exec .iret s = .next t → t.ie = true) ∧
  (∀ (i : Instr) (s t : State) (b : Bool), i ≠ .iret → exec i s = .next t →
    t.ie = s.ie ∧ exec i { s with ie := b } = .next { t with ie := b }) ∧
  (∀ s : State, s.ie = false → s.pendingLine = none) ∧
  ∀ (m : OpcodeMap) (s t : State), stepWith m s = .next t → t.ie ≠ s.ie →
    s.nextInput = .tick ∧ ((∃ l, s.pendingLine = some l) ∨ dispatch m (s.memRead s.pc) = some .iret)

/-- 10_state.md R35, R36: a step that changes eq is a tick that runs CMP, and eq never returns to unset. -/
def Obligations.EqWrittenOnlyByCmp : Prop :=
  ∀ (m : OpcodeMap) (s t : State), stepWith m s = .next t → t.eq ≠ s.eq →
    s.nextInput = .tick ∧ s.pendingLine = none ∧ dispatch m (s.memRead s.pc) = some .cmp ∧ t.eq ≠ .unset

/-- 10_state.md R40: out is empty at reset, and a step leaves it alone or appends one event to it: Num of a register in a
tick that runs PRN, Chr of a register in a tick that runs PRA. -/
def Obligations.OutGrowsOnlyByPrnAndPra : Prop :=
  State.reset.out = [] ∧
  ∀ (m : OpcodeMap) (s t : State), stepWith m s = .next t →
    t.out = s.out ∨
    (s.nextInput = .tick ∧ s.pendingLine = none ∧ ∃ r : Reg, s.memRead (s.pc + 1) = regByte r ∧
      ((dispatch m (s.memRead s.pc) = some .prn ∧ t.out = s.out ++ [.num (s.reg r)]) ∨
       (dispatch m (s.memRead s.pc) = some .pra ∧ t.out = s.out ++ [.chr (s.reg r)])))

/-! ## Interrupts -/

/-- 60_exceptions.md R205: at the start of a tick the lowest line that is pending and enabled is entered while ie is true;
otherwise the tick goes on to the fetch. -/
def Obligations.LowestEnabledLineIsTaken : Prop :=
  (∀ (s : State) (l : Line), s.pendingLine = some l ↔
    s.ie = true ∧ (s.reg IS).getLsbD l.val = true ∧ (s.reg IM).getLsbD l.val = true ∧
    ∀ j : Line, j < l → ¬((s.reg IS).getLsbD j.val = true ∧ (s.reg IM).getLsbD j.val = true)) ∧
  (∀ s : State, s.pendingLine = none ↔ s.ie = false ∨ s.reg IS &&& s.reg IM = 0) ∧
  ∀ (m : OpcodeMap) (s : State), s.nextInput = .tick → s.clock = .running →
    (∀ l : Line, s.pendingLine = some l → stepWith m s = .next (s.afterInput.takeInterrupt l)) ∧
    (s.pendingLine = none → stepWith m s = fetchAndRun m s.afterInput)

/-- 60_exceptions.md R206, R207: the entry makes ie false and clears the IS bit of its line and only that bit. -/
def Obligations.EntryDisablesAndConsumes : Prop :=
  ∀ (s : State) (l : Line), (s.takeInterrupt l).ie = false ∧
    ∀ k < 8, ((s.takeInterrupt l).reg IS).getLsbD k = ((s.reg IS).getLsbD k && decide (k ≠ l.val))

/-- 60_exceptions.md R208, R209, R212: the frame the entry leaves on the stack: pc, R0 to R5, R6 with the line's bit
cleared, and R7 as decremented; SP ends nine lower. That the R7 slot holds SP - 9 is the spec's reading D5 (log entry 6). -/
def Obligations.EntryStacksFrame : Prop :=
  ∀ (s : State) (l : Line), s.mem.wf = true →
    let t := s.takeInterrupt l
    t.sp = s.sp - 9 ∧ t.memRead (s.sp - 1) = s.pc ∧
    t.memRead (s.sp - 2) = s.reg 0 ∧ t.memRead (s.sp - 3) = s.reg 1 ∧ t.memRead (s.sp - 4) = s.reg 2 ∧
    t.memRead (s.sp - 5) = s.reg 3 ∧ t.memRead (s.sp - 6) = s.reg 4 ∧ t.memRead (s.sp - 7) = s.reg 5 ∧
    t.memRead (s.sp - 8) = t.reg 6 ∧ t.memRead (s.sp - 9) = s.sp - 9

/-- 60_exceptions.md R210: the entry's pc is the vector table entry of its line as memory stands after the pushes, whatever
byte that is, the spec's reading D27 (log entry 18): when the table entry is none of the nine slots it is the byte that stood
there before, and when it is the slot the pc was pushed to it is the old pc. -/
def Obligations.EntryJumpsThroughVector : Prop :=
  ∀ (s : State) (l : Line),
    (s.takeInterrupt l).pc = (s.takeInterrupt l).memRead (0xF8 + BitVec.ofNat 8 l.val) ∧
    (0xF8 + BitVec.ofNat 8 l.val ∉ [s.sp - 1, s.sp - 2, s.sp - 3, s.sp - 4, s.sp - 5, s.sp - 6, s.sp - 7, s.sp - 8, s.sp - 9] →
      (s.takeInterrupt l).pc = s.memRead (0xF8 + BitVec.ofNat 8 l.val)) ∧
    (s.mem.wf = true → 0xF8 + BitVec.ofNat 8 l.val = s.sp - 1 → (s.takeInterrupt l).pc = s.pc)

/-- 60_exceptions.md R211: after the entry ir, eq, IM, R0 to R4, out and every memory byte but the nine stack slots are
unchanged (so are clock, halt_reason and the schedule after its tick), and the tick ends there. -/
def Obligations.EntryFrame : Prop :=
  ∀ (m : OpcodeMap) (s : State) (l : Line), s.nextInput = .tick → s.clock = .running → s.pendingLine = some l →
    ∃ t, stepWith m s = .next t ∧ t.ir = s.ir ∧ t.eq = s.eq ∧ t.out = s.out ∧ t.clock = s.clock ∧
      t.haltReason = s.haltReason ∧ t.inputs = s.inputs.tail ∧ SameRegsExcept [IS, SP] s t ∧
      SameMemExcept [s.sp - 1, s.sp - 2, s.sp - 3, s.sp - 4, s.sp - 5, s.sp - 6, s.sp - 7, s.sp - 8, s.sp - 9] s t

/-- 45_system.md R183: the round trip. After an entry, any state u that a handler leaves with SP where the entry left it and
the nine stack bytes unchanged, whatever else it did, IRET brings back pc and every register as they were before the entry,
but for the serviced bit of R6, and sets ie. Under the spec's reading D5 (log entry 6). -/
def Obligations.InterruptRoundTrip : Prop :=
  ∀ (s u : State) (l : Line), s.mem.wf = true → u.sp = (s.takeInterrupt l).sp →
    (∀ c ∈ [s.sp - 1, s.sp - 2, s.sp - 3, s.sp - 4, s.sp - 5, s.sp - 6, s.sp - 7, s.sp - 8, s.sp - 9],
      u.memRead c = (s.takeInterrupt l).memRead c) →
    ∃ v, exec .iret u = .next v ∧ v.pc = s.pc ∧ v.sp = s.sp ∧ v.ie = true ∧
      (∀ r : Reg, r ≠ IS → v.reg r = s.reg r) ∧
      ∀ k < 8, (v.reg IS).getLsbD k = ((s.reg IS).getLsbD k && decide (k ≠ l.val))

/-- 10_state.md R24, 41_alu_data.md R123: the software interrupt: after LDI R6 with a value that has an enabled bit, with ie
true and a tick due, the next step enters an interrupt on a line of that value. -/
def Obligations.WritingIsRaisesInterrupt : Prop :=
  ∀ (m : OpcodeMap) (s t : State) (v : Byte), s.clock = .running → s.ie = true → s.nextInput = .tick →
    v &&& s.reg IM ≠ 0 → exec (.ldi (regByte IS) v) s = .next t →
    ∃ l : Line, v.getLsbD l.val = true ∧ stepWith m t = .next (t.afterInput.takeInterrupt l)

/-! ## Laws that join instructions -/

/-- 43_stack_memory.md R153: PUSH Ra and a later POP Ra with SP and the pushed byte left as PUSH left them give Ra and SP
back, for every register, R7 included; with another destination the byte moves, SP - 1 when R7 was pushed; and POP R7 of
another register's byte leaves SP at that byte plus 1. The cases of R7 are under the spec's reading D5 (log entry 6). -/
def Obligations.PushThenPop : Prop :=
  ∀ (a b : Reg) (s t u : State), s.mem.wf = true → exec (.push (regByte a)) s = .next t →
    u.sp = t.sp → u.memRead t.sp = t.memRead t.sp →
    (∃ v, exec (.pop (regByte a)) u = .next v ∧ v.reg a = s.reg a ∧ v.sp = s.sp) ∧
    ∃ v, exec (.pop (regByte b)) u = .next v ∧
      (b ≠ SP → v.reg b = (if a = SP then s.sp - 1 else s.reg a) ∧ v.sp = s.sp) ∧
      (b = SP → a ≠ SP → v.sp = s.reg a + 1)

/-- 44_control.md R165: the RET that pops the byte a CALL pushed goes to the CALL's address plus 2, with SP as before the
CALL. -/
def Obligations.CallThenRet : Prop :=
  ∀ (a : Reg) (s t u : State), s.mem.wf = true → exec (.call (regByte a)) s = .next t →
    u.sp = t.sp → u.memRead t.sp = t.memRead t.sp →
    ∃ v, exec .ret u = .next v ∧ v.pc = s.pc + 2 ∧ v.sp = s.sp

/-- 41_alu_data.md R126: arithmetic equality takes two CMPs, and a register compared with itself is always true. -/
def Obligations.EqualityTakesTwoCmps : Prop :=
  ∀ (a b : Reg) (s t u : State), exec (.cmp (regByte a) (regByte b)) s = .next t →
    exec (.cmp (regByte b) (regByte a)) t = .next u →
    ((t.eq = .isTrue ∧ u.eq = .isTrue) ↔ s.reg a = s.reg b)

/-- 44_control.md R167, 70_reset_and_hazards.md R258: after a CMP exactly one of JEQ and JNE goes to its target and the other
falls through; while eq is unset both fall through. -/
def Obligations.ConditionalJumpsAreOpposite : Prop :=
  ∀ (a : Reg) (s t u : State), exec (.jeq (regByte a)) s = .next t → exec (.jne (regByte a)) s = .next u →
    (s.eq ≠ .unset →
      (t.pc = s.reg a ∧ u.pc = s.pc + 2 ∧ s.eq = .isTrue) ∨ (t.pc = s.pc + 2 ∧ u.pc = s.reg a ∧ s.eq = .isFalse)) ∧
    (s.eq = .unset → t.pc = s.pc + 2 ∧ u.pc = s.pc + 2)

/-- 20_memory.md R63: self-modifying code: a byte that ST stores at the address of the next instruction is the opcode byte
the next fetching tick has in ir. -/
def Obligations.FetchSeesStore : Prop :=
  ∀ (m : OpcodeMap) (a b : Reg) (s t : State), s.mem.wf = true → s.clock = .running → s.nextInput = .tick →
    s.pendingLine = none → s.reg a = s.pc + 3 → exec (.st (regByte a) (regByte b)) s = .next t →
    ∃ u, stepWith m t = .next u ∧ u.ir = s.reg b

/-! ## The environment -/

/-- 60_exceptions.md R215: a firing of the timer on a running clock sets bit 0 of IS, clears none, and changes nothing else
but the schedule. When it fires is the schedule's choice (92_eei_decisions.md D16; log entry 9). -/
def Obligations.TimerSetsBitZero : Prop :=
  ∀ (m : OpcodeMap) (s : State), s.nextInput = .timer → s.clock = .running → ∃ t, stepWith m s = .next t ∧
    (∀ k < 8, (t.reg IS).getLsbD k = ((s.reg IS).getLsbD k || decide (k = 0))) ∧
    SameRegsExcept [IS] s t ∧ SameMemExcept [] s t ∧ t.pc = s.pc ∧ t.ir = s.ir ∧ t.ie = s.ie ∧ t.eq = s.eq ∧
    t.clock = s.clock ∧ t.haltReason = s.haltReason ∧ t.out = s.out ∧ t.inputs = s.inputs.tail

/-- 60_exceptions.md R231: poke writes memory and startClock starts the clock, each only from stopped; outside that they are
refused by name. The refusals are the spec's own choice (92_eei_decisions.md D19; log entry 11). -/
def Obligations.HostCallsFollowLifecycle : Prop :=
  (∀ (m : OpcodeMap) (s : State) (a v : Byte), s.nextInput = .poke a v →
    (s.clock = .stopped → s.mem.wf = true → ∃ t, stepWith m s = .next t ∧ t.memRead a = v ∧ SameMemExcept [a] s t ∧
      t = { s with mem := t.mem, inputs := s.inputs.tail }) ∧
    (s.clock ≠ .stopped → stepWith m s = .refused (.pokeAfterStart s.clock))) ∧
  ∀ (m : OpcodeMap) (s : State), s.nextInput = .startClock →
    (s.clock = .stopped → stepWith m s = .next { s with clock := .running, inputs := s.inputs.tail }) ∧
    (s.clock ≠ .stopped → stepWith m s = .refused (.startAfterStart s.clock))

/-- 60_exceptions.md R232: stopClock halts with reason HostStop if the clock is not already halted, and changes nothing else;
on a halted machine it changes nothing but the schedule; after it neither a tick nor a timer event has a step. The call from
stopped is read from R231 and R232 together (log entry 20); the stop's name is the model's (log entry 8). -/
def Obligations.StopClockHalts : Prop :=
  ∀ (m : OpcodeMap) (s : State), s.nextInput = .stopClock →
    (s.clock ≠ .halted →
      stepWith m s = .next { s with clock := .halted, haltReason := .hostStop, inputs := s.inputs.tail }) ∧
    (s.clock = .halted → stepWith m s = .next { s with inputs := s.inputs.tail }) ∧
    ∀ t : State, stepWith m s = .next t → t.nextInput = .tick ∨ t.nextInput = .timer →
      stepWith m t = .fault .clockHalted

/-! ## Memory, reset and the invariant -/

/-- 20_memory.md R53, R61: a read returns the byte last written to that address, and other addresses keep theirs; and a
canonical memory is determined by its 256 readings (the form is the model's, log entry 4). -/
def Obligations.MemoryReadsBackWrites : Prop :=
  (∀ (s : State) (a v c : Byte), s.mem.wf = true → (s.memWrite a v).memRead c = if c = a then v else s.memRead c) ∧
  ∀ s t : State, s.mem.wf = true → t.mem.wf = true → SameMemExcept [] s t → t.mem = s.mem

/-- 70_reset_and_hazards.md R240: the state at construction, for every SP_RESET and MEM_IMAGE, the two open parameters; and
reset is the construction with the model's default SP_RESET (log entry 2) and the empty image, every byte of which reads as
the model's unlisted byte (log entry 4). R0 to R6, pc and ir are zero by the spec's decisions D6 to D8 (log entry 3). -/
def Obligations.ResetState : Prop :=
  (∀ (sp : Byte) (image : Memory), let s := State.construct sp image
    (∀ r : Reg, r ≠ SP → s.reg r = 0) ∧ s.sp = sp ∧ s.pc = 0 ∧ s.ir = 0 ∧ s.ie = true ∧ s.eq = .unset ∧
    s.clock = .stopped ∧ s.haltReason = .none ∧ s.out = [] ∧ s.mem = image) ∧
  State.reset = State.construct spReset [] ∧ ∀ a : Byte, State.reset.memRead a = unlistedByte

/-- The invariant holds at construction for every SP_RESET and every canonical image, so at reset. That memory is canonical
is the model's form (log entry 4), and the zeros of R0 to R6, pc and ir at construction are the spec's own choices D6 to D8
(70_reset_and_hazards.md R240; log entry 3). -/
def Obligations.ConstructionMeetsInvariant : Prop :=
  (∀ (m : OpcodeMap) (sp : Byte) (image : Memory), image.wf = true → (State.construct sp image).Inv m) ∧
  State.reset.Inv opcodeMap

/-- Every step keeps the invariant, under every opcode map: memory stays canonical, the clock is halted exactly when a reason
is recorded, the report stays true of the machine it describes, and a machine not yet started is as constructed but for
memory (10_state.md R38, R39; 40_engine.md R107, R110; 60_exceptions.md R201, R202; 70_reset_and_hazards.md R240). These
clauses rest on choices. The canonical form of memory is the model's (log entry 4). That the report's address is the pc of
the halted machine after an HLT is the spec's own choice D12, and that pc and ir stay after a fault is its D13 (log entry
15, unsafe for a claim about them). That OperandFault is raised for a byte above 7 is its D4 (log entry 7), the byte's address
taken modulo 256 by its D2 (log entry 5). The zeros of a machine not yet started are its D6 to D8 (log entry 3). -/
def Obligations.StepKeepsInvariant : Prop :=
  (∀ (m : OpcodeMap) (s t : State), s.Inv m → stepWith m s = .next t → t.Inv m) ∧
  ∀ s t : State, s.Inv opcodeMap → step s = .next t → t.Inv opcodeMap
end

