-- ==== Sys2Proof/Laws/Decode.lean ====
section
/-! SUPPORT. The decoder and the encoder: the dispatch table is the inverse of the opcode map, and what decoding says about
the bytes it read. -/

namespace Sys2Proof

theorem Mnemonic.mem_all (x : Mnemonic) : x ∈ Mnemonic.all := by cases x <;> decide

/-- The assigned bytes are the bytes of the mnemonics in order. -/
theorem OpcodeMap.bytes_eq (m : OpcodeMap) : m.bytes = Mnemonic.all.map m.byteOf := rfl

theorem OpcodeMap.byteOf_mem (m : OpcodeMap) (x : Mnemonic) : m.byteOf x ∈ m.bytes := by
  rw [m.bytes_eq]
  exact List.mem_map_of_mem x.mem_all

/-- Under a valid map a byte has at most one handler. -/
theorem OpcodeMap.byteOf_injective {m : OpcodeMap} (h : m.Valid) {x y : Mnemonic} (e : m.byteOf x = m.byteOf y) : x = y :=
  List.inj_on_of_nodup_map (m.bytes_eq ▸ h.1) x.mem_all y.mem_all e

/-- What the dispatch table finds is assigned that byte. -/
theorem byteOf_of_dispatch {m : OpcodeMap} {b : Byte} {x : Mnemonic} (h : dispatch m b = some x) : m.byteOf x = b := by
  simpa using List.find?_some h

/-- The dispatch table finds every mnemonic by its byte. -/
theorem dispatch_byteOf {m : OpcodeMap} (h : m.Valid) (x : Mnemonic) : dispatch m (m.byteOf x) = some x := by
  cases e : dispatch m (m.byteOf x) with
  | none =>
    have := List.find?_eq_none.1 e x x.mem_all
    simp at this
  | some y => rw [OpcodeMap.byteOf_injective h (byteOf_of_dispatch e)]

/-- A byte has no handler when no mnemonic is assigned it. -/
theorem dispatch_none_iff (m : OpcodeMap) (b : Byte) : dispatch m b = none ↔ b ∉ m.bytes := by
  rw [m.bytes_eq]
  constructor
  · intro h hb
    obtain ⟨x, hx, rfl⟩ := List.mem_map.1 hb
    simpa using List.find?_eq_none.1 h x hx
  · intro h
    refine List.find?_eq_none.2 fun x hx => ?_
    simp only [beq_iff_eq]
    rintro rfl
    exact h (List.mem_map_of_mem hx)

/-- The operand bytes of an instruction are read back, and no more than them. -/
theorem decodeOperands_operandBytes (i : Instr) (rest : List Byte) :
    decodeOperands i.mnemonic (i.operandBytes ++ rest) = .ok (i, rest) := by
  cases i <;> rfl

/-- What is read as operands is what was there. -/
theorem operandBytes_of_decodeOperands {x : Mnemonic} {bs rest : List Byte} {i : Instr}
    (h : decodeOperands x bs = .ok (i, rest)) : i.mnemonic = x ∧ bs = i.operandBytes ++ rest := by
  cases x <;> simp only [decodeOperands, operandsZ] at h
  case nop => cases h; exact ⟨rfl, rfl⟩
  case ret => cases h; exact ⟨rfl, rfl⟩
  case iret => cases h; exact ⟨rfl, rfl⟩
  case hlt => cases h; exact ⟨rfl, rfl⟩
  all_goals
    match bs, h with
    | _ :: _ :: _, h => cases h; exact ⟨rfl, rfl⟩
    | [_], h => cases h <;> exact ⟨rfl, rfl⟩
    | [], h => cases h

/-- What decoding says about the bytes: the opcode byte has a handler, and the operand bytes follow it. -/
theorem decodeWith_ok {m : OpcodeMap} {bs rest : List Byte} {i : Instr} (h : decodeWith m bs = .ok (i, rest)) :
    ∃ b, dispatch m b = some i.mnemonic ∧ bs = b :: (i.operandBytes ++ rest) := by
  match bs, h with
  | b :: bs, h =>
    simp only [decodeWith] at h
    split at h
    · cases h
    · rename_i x hx
      obtain ⟨h1, h2⟩ := operandBytes_of_decodeOperands h
      exact ⟨b, by rw [h1]; exact hx, by rw [h2]⟩

/-- Given two operand bytes, decoding fails only for an opcode byte with no handler. -/
theorem decodeWith_error {m : OpcodeMap} {b c d : Byte} {e : DecodeError} (h : decodeWith m [b, c, d] = .error e) :
    dispatch m b = none ∧ e = .noHandler b := by
  simp only [decodeWith] at h
  split at h
  · rename_i hn
    cases h
    exact ⟨hn, rfl⟩
  · rename_i x hx
    cases x <;> cases h

theorem decodeWith_of_dispatch_none {m : OpcodeMap} {b : Byte} (h : dispatch m b = none) (bs : List Byte) :
    decodeWith m (b :: bs) = .error (.noHandler b) := by
  simp [decodeWith, h]

end Sys2Proof
end

