-- ==== Sys2Proof/Laws/Memory.lean ====
section
/-! SUPPORT. The laws of memory: read after write, the canonical form and its preservation, and that equal readings make
equal memories. -/

namespace Sys2Proof.Machine

open Memory

theorem Memory.read_consCell_self (a : Nat) (v : Byte) (m : Memory) (h : Memory.read m a = unlistedByte) :
    (Memory.consCell a v m).read a = v := by
  unfold Memory.consCell
  split <;> simp_all [Memory.read]

theorem Memory.read_consCell_ne {a b : Nat} (h : a ≠ b) (v : Byte) (m : Memory) :
    (Memory.consCell a v m).read b = m.read b := by
  unfold Memory.consCell
  split <;> simp [Memory.read, h]

/-- An address below every listed one reads as unlisted. -/
theorem Memory.read_of_lt_all {m : Memory} {a : Nat} (h : ∀ c ∈ m, a < c.1) : m.read a = unlistedByte := by
  induction m with
  | nil => rfl
  | cons c m ih =>
    have hc := h c (by simp)
    have : c.1 ≠ a := by omega
    simp only [Memory.read, this, if_false]
    exact ih fun d hd => h d (by simp [hd])

/-- The canonical form as a proposition. -/
theorem Memory.wf_iff (m : Memory) :
    m.wf = true ↔ m.Pairwise (fun c d => c.1 < d.1) ∧ ∀ c ∈ m, c.1 < memSize ∧ c.2 ≠ unlistedByte := by
  simp [Memory.wf]

theorem Memory.wf_tail {c : Host.Cell} {m : Memory} (h : Memory.wf (c :: m) = true) : m.wf = true := by
  rw [Memory.wf_iff] at *
  exact ⟨(List.pairwise_cons.1 h.1).2, fun d hd => h.2 d (by simp [hd])⟩

theorem Memory.wf_head_lt {c : Host.Cell} {m : Memory} (h : Memory.wf (c :: m) = true) : ∀ d ∈ m, c.1 < d.1 :=
  (List.pairwise_cons.1 ((Memory.wf_iff _).1 h).1).1

/-- Read after write at the same address. -/
theorem Memory.read_write_self {m : Memory} (h : m.wf = true) (a : Nat) (v : Byte) : (m.write a v).read a = v := by
  induction m with
  | nil => exact Memory.read_consCell_self a v [] rfl
  | cons c m ih =>
    obtain ⟨k, w⟩ := c
    have hlt := Memory.wf_head_lt h
    simp only [Memory.write]
    split
    · rename_i hak
      refine Memory.read_consCell_self a v _ (Memory.read_of_lt_all ?_)
      simp only [List.mem_cons, forall_eq_or_imp]
      exact ⟨hak, fun d hd => by have := hlt d hd; simp at this; omega⟩
    · split
      · rename_i hak
        subst hak
        exact Memory.read_consCell_self a v m (Memory.read_of_lt_all hlt)
      · rename_i hne
        have : k ≠ a := fun e => hne e.symm
        simp only [Memory.read, this, if_false]
        exact ih (Memory.wf_tail h)

/-- Read after write at another address. -/
theorem Memory.read_write_ne {a b : Nat} (hab : a ≠ b) (m : Memory) (v : Byte) : (m.write a v).read b = m.read b := by
  induction m with
  | nil => exact Memory.read_consCell_ne hab v []
  | cons c m ih =>
    obtain ⟨k, w⟩ := c
    simp only [Memory.write]
    split
    · exact Memory.read_consCell_ne hab v _
    · split
      · rename_i h
        rw [Memory.read_consCell_ne hab v m]
        simp [Memory.read, ← h, hab]
      · simp only [Memory.read]
        rw [ih]

theorem Memory.mem_consCell {a : Nat} {v : Byte} {m : Memory} {c : Host.Cell} (h : c ∈ Memory.consCell a v m) :
    (c = (a, v) ∧ v ≠ unlistedByte) ∨ c ∈ m := by
  unfold Memory.consCell at h
  split at h <;> simp_all

theorem Memory.mem_write {m : Memory} {a : Nat} {v : Byte} {c : Host.Cell} (h : c ∈ m.write a v) :
    (c = (a, v) ∧ v ≠ unlistedByte) ∨ c ∈ m := by
  induction m with
  | nil => exact Memory.mem_consCell h
  | cons d m ih =>
    obtain ⟨k, w⟩ := d
    simp only [Memory.write] at h
    split at h
    · exact Memory.mem_consCell h
    · split at h
      · rcases Memory.mem_consCell h with h | h
        · exact Or.inl h
        · exact Or.inr (by simp [h])
      · rcases List.mem_cons.1 h with h | h
        · exact Or.inr (by simp [h])
        · rcases ih h with h | h
          · exact Or.inl h
          · exact Or.inr (by simp [h])

theorem Memory.wf_cons_iff (a : Nat) (v : Byte) (m : Memory) :
    Memory.wf ((a, v) :: m) = true ↔ (∀ d ∈ m, a < d.1) ∧ a < memSize ∧ v ≠ unlistedByte ∧ m.wf = true := by
  simp only [Memory.wf_iff, List.pairwise_cons, List.mem_cons, forall_eq_or_imp]
  tauto

theorem Memory.wf_consCell {a : Nat} {v : Byte} {m : Memory} (hm : m.wf = true) (ha : a < memSize)
    (hlt : ∀ d ∈ m, a < d.1) : (Memory.consCell a v m).wf = true := by
  unfold Memory.consCell
  split
  · exact hm
  · rw [Memory.wf_cons_iff]
    exact ⟨hlt, ha, ‹_›, hm⟩

/-- A write keeps the canonical form. -/
theorem Memory.wf_write {m : Memory} (h : m.wf = true) {a : Nat} (ha : a < memSize) (v : Byte) :
    (m.write a v).wf = true := by
  induction m with
  | nil => exact Memory.wf_consCell h ha (by simp)
  | cons c m ih =>
    obtain ⟨k, w⟩ := c
    have hlt := Memory.wf_head_lt h
    have ht := Memory.wf_tail h
    simp only [Memory.write]
    split
    · rename_i hak
      refine Memory.wf_consCell h ha ?_
      simp only [List.mem_cons, forall_eq_or_imp]
      exact ⟨hak, fun d hd => by have := hlt d hd; simp at this; omega⟩
    · split
      · rename_i hak
        exact Memory.wf_consCell ht ha (by simpa [hak] using hlt)
      · rw [Memory.wf_cons_iff] at h ⊢
        refine ⟨fun d hd => ?_, h.2.1, h.2.2.1, ih ht⟩
        rcases Memory.mem_write hd with ⟨rfl, -⟩ | hd
        · simp; omega
        · exact h.1 d hd

/-- A canonical memory lists nothing at or above 256. -/
theorem Memory.read_of_memSize_le {m : Memory} (h : m.wf = true) {a : Nat} (ha : memSize ≤ a) :
    m.read a = unlistedByte := by
  induction m with
  | nil => rfl
  | cons c m ih =>
    obtain ⟨k, w⟩ := c
    have hk := ((Memory.wf_cons_iff k w m).1 h).2.1
    have : k ≠ a := by omega
    simp only [Memory.read, this, if_false]
    exact ih (Memory.wf_tail h)

/-- Equal readings make equal memories. -/
theorem Memory.ext_of_read : ∀ {m n : Memory}, m.wf = true → n.wf = true → (∀ a, m.read a = n.read a) → m = n
  | [], [], _, _, _ => rfl
  | [], (k, w) :: n, _, hn, h => by
    have := h k
    simp [Memory.read] at this
    exact absurd this.symm ((Memory.wf_cons_iff k w n).1 hn).2.2.1
  | (k, w) :: m, [], hm, _, h => by
    have := h k
    simp [Memory.read] at this
    exact absurd this ((Memory.wf_cons_iff k w m).1 hm).2.2.1
  | (k, w) :: m, (l, x) :: n, hm, hn, h => by
    have hm' := (Memory.wf_cons_iff k w m).1 hm
    have hn' := (Memory.wf_cons_iff l x n).1 hn
    have hkl : k = l := by
      rcases Nat.lt_trichotomy k l with hlt | heq | hlt
      · have := h k
        rw [Memory.read_of_lt_all (m := (l, x) :: n)] at this
        · simp [Memory.read] at this
          exact absurd this hm'.2.2.1
        · simp only [List.mem_cons, forall_eq_or_imp]
          exact ⟨hlt, fun d hd => Nat.lt_trans hlt (hn'.1 d hd)⟩
      · exact heq
      · have := h l
        rw [Memory.read_of_lt_all (m := (k, w) :: m)] at this
        · simp [Memory.read] at this
          exact absurd this.symm hn'.2.2.1
        · simp only [List.mem_cons, forall_eq_or_imp]
          exact ⟨hlt, fun d hd => Nat.lt_trans hlt (hm'.1 d hd)⟩
    subst hkl
    have hwx : w = x := by simpa [Memory.read] using h k
    subst hwx
    have hmn : m = n := by
      refine Memory.ext_of_read hm'.2.2.2 hn'.2.2.2 fun a => ?_
      by_cases hka : k = a
      · subst hka
        rw [Memory.read_of_lt_all hm'.1, Memory.read_of_lt_all hn'.1]
      · simpa [Memory.read, hka] using h a
    rw [hmn]

end Sys2Proof.Machine
end

