-- ==== Sys2Proof/Laws/State.lean ====
section
/-! SUPPORT. One lemma per field per update of State: what each named update of Machine/Ops.lean leaves in each field, true by
rfl, and the same for the three accessors reg, sp and memRead. -/

namespace Sys2Proof.Machine

variable (s : State)

@[simp] theorem State.setReg_regs (r : Reg) (v : Byte) : (s.setReg r v).regs = s.regs.set r.val v := rfl
@[simp] theorem State.setReg_pc (r : Reg) (v : Byte) : (s.setReg r v).pc = s.pc := rfl
@[simp] theorem State.setReg_ir (r : Reg) (v : Byte) : (s.setReg r v).ir = s.ir := rfl
@[simp] theorem State.setReg_ie (r : Reg) (v : Byte) : (s.setReg r v).ie = s.ie := rfl
@[simp] theorem State.setReg_eq (r : Reg) (v : Byte) : (s.setReg r v).eq = s.eq := rfl
@[simp] theorem State.setReg_clock (r : Reg) (v : Byte) : (s.setReg r v).clock = s.clock := rfl
@[simp] theorem State.setReg_haltReason (r : Reg) (v : Byte) : (s.setReg r v).haltReason = s.haltReason := rfl
@[simp] theorem State.setReg_out (r : Reg) (v : Byte) : (s.setReg r v).out = s.out := rfl
@[simp] theorem State.setReg_mem (r : Reg) (v : Byte) : (s.setReg r v).mem = s.mem := rfl
@[simp] theorem State.setReg_inputs (r : Reg) (v : Byte) : (s.setReg r v).inputs = s.inputs := rfl
@[simp] theorem State.setReg_memRead (r : Reg) (v : Byte) (c : Byte) : (s.setReg r v).memRead c = s.memRead c := rfl

@[simp] theorem State.memWrite_regs (a v : Byte) : (s.memWrite a v).regs = s.regs := rfl
@[simp] theorem State.memWrite_pc (a v : Byte) : (s.memWrite a v).pc = s.pc := rfl
@[simp] theorem State.memWrite_ir (a v : Byte) : (s.memWrite a v).ir = s.ir := rfl
@[simp] theorem State.memWrite_ie (a v : Byte) : (s.memWrite a v).ie = s.ie := rfl
@[simp] theorem State.memWrite_eq (a v : Byte) : (s.memWrite a v).eq = s.eq := rfl
@[simp] theorem State.memWrite_clock (a v : Byte) : (s.memWrite a v).clock = s.clock := rfl
@[simp] theorem State.memWrite_haltReason (a v : Byte) : (s.memWrite a v).haltReason = s.haltReason := rfl
@[simp] theorem State.memWrite_out (a v : Byte) : (s.memWrite a v).out = s.out := rfl
@[simp] theorem State.memWrite_mem (a v : Byte) : (s.memWrite a v).mem = s.mem.write a.toNat v := rfl
@[simp] theorem State.memWrite_inputs (a v : Byte) : (s.memWrite a v).inputs = s.inputs := rfl
@[simp] theorem State.memWrite_reg (a v : Byte) (q : Reg) : (s.memWrite a v).reg q = s.reg q := rfl
@[simp] theorem State.memWrite_sp (a v : Byte) : (s.memWrite a v).sp = s.sp := rfl

@[simp] theorem State.setPc_regs (a : Byte) : (s.setPc a).regs = s.regs := rfl
@[simp] theorem State.setPc_pc (a : Byte) : (s.setPc a).pc = a := rfl
@[simp] theorem State.setPc_ir (a : Byte) : (s.setPc a).ir = s.ir := rfl
@[simp] theorem State.setPc_ie (a : Byte) : (s.setPc a).ie = s.ie := rfl
@[simp] theorem State.setPc_eq (a : Byte) : (s.setPc a).eq = s.eq := rfl
@[simp] theorem State.setPc_clock (a : Byte) : (s.setPc a).clock = s.clock := rfl
@[simp] theorem State.setPc_haltReason (a : Byte) : (s.setPc a).haltReason = s.haltReason := rfl
@[simp] theorem State.setPc_out (a : Byte) : (s.setPc a).out = s.out := rfl
@[simp] theorem State.setPc_mem (a : Byte) : (s.setPc a).mem = s.mem := rfl
@[simp] theorem State.setPc_inputs (a : Byte) : (s.setPc a).inputs = s.inputs := rfl
@[simp] theorem State.setPc_reg (a : Byte) (q : Reg) : (s.setPc a).reg q = s.reg q := rfl
@[simp] theorem State.setPc_sp (a : Byte) : (s.setPc a).sp = s.sp := rfl
@[simp] theorem State.setPc_memRead (a : Byte) (c : Byte) : (s.setPc a).memRead c = s.memRead c := rfl

@[simp] theorem State.advance_regs (n : Nat) : (s.advance n).regs = s.regs := rfl
@[simp] theorem State.advance_pc (n : Nat) : (s.advance n).pc = s.pc + BitVec.ofNat 8 n := rfl
@[simp] theorem State.advance_ir (n : Nat) : (s.advance n).ir = s.ir := rfl
@[simp] theorem State.advance_ie (n : Nat) : (s.advance n).ie = s.ie := rfl
@[simp] theorem State.advance_eq (n : Nat) : (s.advance n).eq = s.eq := rfl
@[simp] theorem State.advance_clock (n : Nat) : (s.advance n).clock = s.clock := rfl
@[simp] theorem State.advance_haltReason (n : Nat) : (s.advance n).haltReason = s.haltReason := rfl
@[simp] theorem State.advance_out (n : Nat) : (s.advance n).out = s.out := rfl
@[simp] theorem State.advance_mem (n : Nat) : (s.advance n).mem = s.mem := rfl
@[simp] theorem State.advance_inputs (n : Nat) : (s.advance n).inputs = s.inputs := rfl
@[simp] theorem State.advance_reg (n : Nat) (q : Reg) : (s.advance n).reg q = s.reg q := rfl
@[simp] theorem State.advance_sp (n : Nat) : (s.advance n).sp = s.sp := rfl
@[simp] theorem State.advance_memRead (n : Nat) (c : Byte) : (s.advance n).memRead c = s.memRead c := rfl

@[simp] theorem State.setIr_regs (v : Byte) : (s.setIr v).regs = s.regs := rfl
@[simp] theorem State.setIr_pc (v : Byte) : (s.setIr v).pc = s.pc := rfl
@[simp] theorem State.setIr_ir (v : Byte) : (s.setIr v).ir = v := rfl
@[simp] theorem State.setIr_ie (v : Byte) : (s.setIr v).ie = s.ie := rfl
@[simp] theorem State.setIr_eq (v : Byte) : (s.setIr v).eq = s.eq := rfl
@[simp] theorem State.setIr_clock (v : Byte) : (s.setIr v).clock = s.clock := rfl
@[simp] theorem State.setIr_haltReason (v : Byte) : (s.setIr v).haltReason = s.haltReason := rfl
@[simp] theorem State.setIr_out (v : Byte) : (s.setIr v).out = s.out := rfl
@[simp] theorem State.setIr_mem (v : Byte) : (s.setIr v).mem = s.mem := rfl
@[simp] theorem State.setIr_inputs (v : Byte) : (s.setIr v).inputs = s.inputs := rfl
@[simp] theorem State.setIr_reg (v : Byte) (q : Reg) : (s.setIr v).reg q = s.reg q := rfl
@[simp] theorem State.setIr_sp (v : Byte) : (s.setIr v).sp = s.sp := rfl
@[simp] theorem State.setIr_memRead (v : Byte) (c : Byte) : (s.setIr v).memRead c = s.memRead c := rfl

@[simp] theorem State.setIe_regs (b : Bool) : (s.setIe b).regs = s.regs := rfl
@[simp] theorem State.setIe_pc (b : Bool) : (s.setIe b).pc = s.pc := rfl
@[simp] theorem State.setIe_ir (b : Bool) : (s.setIe b).ir = s.ir := rfl
@[simp] theorem State.setIe_ie (b : Bool) : (s.setIe b).ie = b := rfl
@[simp] theorem State.setIe_eq (b : Bool) : (s.setIe b).eq = s.eq := rfl
@[simp] theorem State.setIe_clock (b : Bool) : (s.setIe b).clock = s.clock := rfl
@[simp] theorem State.setIe_haltReason (b : Bool) : (s.setIe b).haltReason = s.haltReason := rfl
@[simp] theorem State.setIe_out (b : Bool) : (s.setIe b).out = s.out := rfl
@[simp] theorem State.setIe_mem (b : Bool) : (s.setIe b).mem = s.mem := rfl
@[simp] theorem State.setIe_inputs (b : Bool) : (s.setIe b).inputs = s.inputs := rfl
@[simp] theorem State.setIe_reg (b : Bool) (q : Reg) : (s.setIe b).reg q = s.reg q := rfl
@[simp] theorem State.setIe_sp (b : Bool) : (s.setIe b).sp = s.sp := rfl
@[simp] theorem State.setIe_memRead (b : Bool) (c : Byte) : (s.setIe b).memRead c = s.memRead c := rfl

@[simp] theorem State.setEq_regs (f : EqFlag) : (s.setEq f).regs = s.regs := rfl
@[simp] theorem State.setEq_pc (f : EqFlag) : (s.setEq f).pc = s.pc := rfl
@[simp] theorem State.setEq_ir (f : EqFlag) : (s.setEq f).ir = s.ir := rfl
@[simp] theorem State.setEq_ie (f : EqFlag) : (s.setEq f).ie = s.ie := rfl
@[simp] theorem State.setEq_eq (f : EqFlag) : (s.setEq f).eq = f := rfl
@[simp] theorem State.setEq_clock (f : EqFlag) : (s.setEq f).clock = s.clock := rfl
@[simp] theorem State.setEq_haltReason (f : EqFlag) : (s.setEq f).haltReason = s.haltReason := rfl
@[simp] theorem State.setEq_out (f : EqFlag) : (s.setEq f).out = s.out := rfl
@[simp] theorem State.setEq_mem (f : EqFlag) : (s.setEq f).mem = s.mem := rfl
@[simp] theorem State.setEq_inputs (f : EqFlag) : (s.setEq f).inputs = s.inputs := rfl
@[simp] theorem State.setEq_reg (f : EqFlag) (q : Reg) : (s.setEq f).reg q = s.reg q := rfl
@[simp] theorem State.setEq_sp (f : EqFlag) : (s.setEq f).sp = s.sp := rfl
@[simp] theorem State.setEq_memRead (f : EqFlag) (c : Byte) : (s.setEq f).memRead c = s.memRead c := rfl

@[simp] theorem State.start_regs : (s.start).regs = s.regs := rfl
@[simp] theorem State.start_pc : (s.start).pc = s.pc := rfl
@[simp] theorem State.start_ir : (s.start).ir = s.ir := rfl
@[simp] theorem State.start_ie : (s.start).ie = s.ie := rfl
@[simp] theorem State.start_eq : (s.start).eq = s.eq := rfl
@[simp] theorem State.start_clock : (s.start).clock = .running := rfl
@[simp] theorem State.start_haltReason : (s.start).haltReason = s.haltReason := rfl
@[simp] theorem State.start_out : (s.start).out = s.out := rfl
@[simp] theorem State.start_mem : (s.start).mem = s.mem := rfl
@[simp] theorem State.start_inputs : (s.start).inputs = s.inputs := rfl
@[simp] theorem State.start_reg (q : Reg) : (s.start).reg q = s.reg q := rfl
@[simp] theorem State.start_sp : (s.start).sp = s.sp := rfl
@[simp] theorem State.start_memRead (c : Byte) : (s.start).memRead c = s.memRead c := rfl

@[simp] theorem State.setInputs_regs (l : List Input) : (s.setInputs l).regs = s.regs := rfl
@[simp] theorem State.setInputs_pc (l : List Input) : (s.setInputs l).pc = s.pc := rfl
@[simp] theorem State.setInputs_ir (l : List Input) : (s.setInputs l).ir = s.ir := rfl
@[simp] theorem State.setInputs_ie (l : List Input) : (s.setInputs l).ie = s.ie := rfl
@[simp] theorem State.setInputs_eq (l : List Input) : (s.setInputs l).eq = s.eq := rfl
@[simp] theorem State.setInputs_clock (l : List Input) : (s.setInputs l).clock = s.clock := rfl
@[simp] theorem State.setInputs_haltReason (l : List Input) : (s.setInputs l).haltReason = s.haltReason := rfl
@[simp] theorem State.setInputs_out (l : List Input) : (s.setInputs l).out = s.out := rfl
@[simp] theorem State.setInputs_mem (l : List Input) : (s.setInputs l).mem = s.mem := rfl
@[simp] theorem State.setInputs_inputs (l : List Input) : (s.setInputs l).inputs = l := rfl
@[simp] theorem State.setInputs_reg (l : List Input) (q : Reg) : (s.setInputs l).reg q = s.reg q := rfl
@[simp] theorem State.setInputs_sp (l : List Input) : (s.setInputs l).sp = s.sp := rfl
@[simp] theorem State.setInputs_memRead (l : List Input) (c : Byte) : (s.setInputs l).memRead c = s.memRead c := rfl

@[simp] theorem State.emit_regs (e : OutEvent) : (s.emit e).regs = s.regs := rfl
@[simp] theorem State.emit_pc (e : OutEvent) : (s.emit e).pc = s.pc := rfl
@[simp] theorem State.emit_ir (e : OutEvent) : (s.emit e).ir = s.ir := rfl
@[simp] theorem State.emit_ie (e : OutEvent) : (s.emit e).ie = s.ie := rfl
@[simp] theorem State.emit_eq (e : OutEvent) : (s.emit e).eq = s.eq := rfl
@[simp] theorem State.emit_clock (e : OutEvent) : (s.emit e).clock = s.clock := rfl
@[simp] theorem State.emit_haltReason (e : OutEvent) : (s.emit e).haltReason = s.haltReason := rfl
@[simp] theorem State.emit_out (e : OutEvent) : (s.emit e).out = s.out ++ [e] := rfl
@[simp] theorem State.emit_mem (e : OutEvent) : (s.emit e).mem = s.mem := rfl
@[simp] theorem State.emit_inputs (e : OutEvent) : (s.emit e).inputs = s.inputs := rfl
@[simp] theorem State.emit_reg (e : OutEvent) (q : Reg) : (s.emit e).reg q = s.reg q := rfl
@[simp] theorem State.emit_sp (e : OutEvent) : (s.emit e).sp = s.sp := rfl
@[simp] theorem State.emit_memRead (e : OutEvent) (c : Byte) : (s.emit e).memRead c = s.memRead c := rfl

@[simp] theorem State.halt_regs (h : HaltReason) : (s.halt h).regs = s.regs := rfl
@[simp] theorem State.halt_pc (h : HaltReason) : (s.halt h).pc = s.pc := rfl
@[simp] theorem State.halt_ir (h : HaltReason) : (s.halt h).ir = s.ir := rfl
@[simp] theorem State.halt_ie (h : HaltReason) : (s.halt h).ie = s.ie := rfl
@[simp] theorem State.halt_eq (h : HaltReason) : (s.halt h).eq = s.eq := rfl
@[simp] theorem State.halt_clock (h : HaltReason) : (s.halt h).clock = .halted := rfl
@[simp] theorem State.halt_haltReason (h : HaltReason) : (s.halt h).haltReason = h := rfl
@[simp] theorem State.halt_out (h : HaltReason) : (s.halt h).out = s.out := rfl
@[simp] theorem State.halt_mem (h : HaltReason) : (s.halt h).mem = s.mem := rfl
@[simp] theorem State.halt_inputs (h : HaltReason) : (s.halt h).inputs = s.inputs := rfl
@[simp] theorem State.halt_reg (h : HaltReason) (q : Reg) : (s.halt h).reg q = s.reg q := rfl
@[simp] theorem State.halt_sp (h : HaltReason) : (s.halt h).sp = s.sp := rfl
@[simp] theorem State.halt_memRead (h : HaltReason) (c : Byte) : (s.halt h).memRead c = s.memRead c := rfl

/-- Reading a register after writing one. -/
theorem State.setReg_reg (r : Reg) (v : Byte) (q : Reg) : (s.setReg r v).reg q = if q = r then v else s.reg q := by
  unfold State.setReg State.reg
  rw [Vector.getElem_set]
  by_cases h : q = r
  · simp [h]
  · have h' : r.val ≠ q.val := fun e => h (Fin.ext e.symm)
    simp [h, h']

@[simp] theorem State.setReg_reg_self (r : Reg) (v : Byte) : (s.setReg r v).reg r = v := by simp [State.setReg_reg]

@[simp] theorem State.setReg_reg_ne {r q : Reg} (h : q ≠ r) (v : Byte) : (s.setReg r v).reg q = s.reg q := by
  simp [State.setReg_reg, h]

@[simp] theorem State.setReg_sp_self (v : Byte) : (s.setReg SP v).sp = v := State.setReg_reg_self s SP v

@[simp] theorem State.setReg_sp_ne {r : Reg} (h : r ≠ SP) (v : Byte) : (s.setReg r v).sp = s.sp :=
  State.setReg_reg_ne s (fun e => h e.symm) v

theorem State.sp_eq : s.sp = s.reg SP := rfl

/-- Two states with the same registers one by one have the same register file. -/
theorem State.regs_ext {s t : State} (h : ∀ r, s.reg r = t.reg r) : s.regs = t.regs := by
  apply Vector.ext
  intro i hi
  exact h ⟨i, hi⟩

end Sys2Proof.Machine
end

