-- ==== Sys2Proof/Laws/Ops.lean ====
section
/-! SUPPORT. One lemma for each shared operation, saying once what it can do. -/

namespace Sys2Proof.Machine

/-! ## Memory through the state -/

theorem Byte.toNat_ne {a b : Byte} (h : a ≠ b) : a.toNat ≠ b.toNat := fun e => h (BitVec.eq_of_toNat_eq e)

/-- Reading a byte of memory after writing one. -/
theorem State.memWrite_memRead {s : State} (h : s.mem.wf = true) (a v c : Byte) :
    (s.memWrite a v).memRead c = if c = a then v else s.memRead c := by
  unfold State.memWrite State.memRead
  split
  · rename_i e
    subst e
    exact Memory.read_write_self h _ v
  · rename_i e
    exact Memory.read_write_ne (Byte.toNat_ne fun e' => e e'.symm) _ v

theorem State.memWrite_memRead_self {s : State} (h : s.mem.wf = true) (a v : Byte) : (s.memWrite a v).memRead a = v := by
  simp [State.memWrite_memRead h]

/-- No canonical form is needed to read elsewhere. -/
theorem State.memWrite_memRead_ne (s : State) {a c : Byte} (h : c ≠ a) (v : Byte) :
    (s.memWrite a v).memRead c = s.memRead c :=
  Memory.read_write_ne (Byte.toNat_ne fun e => h e.symm) _ v

/-- A memory write keeps the canonical form: every address is below 256. -/
theorem State.memWrite_wf {s : State} (h : s.mem.wf = true) (a v : Byte) : (s.memWrite a v).mem.wf = true :=
  Memory.wf_write h (by have := a.isLt; unfold memSize; omega) v

/-! ## The stack -/

/-- What a push does: SP moves down by one, one byte is written there, nothing else changes. -/
theorem State.push_eq (s : State) (v : State → Byte) :
    s.push v = (s.setReg SP (s.sp - 1)).memWrite (s.sp - 1) (v (s.setReg SP (s.sp - 1))) := by
  simp [State.push]

@[simp] theorem State.push_pc (s : State) (v : State → Byte) : (s.push v).pc = s.pc := by simp [State.push_eq]
@[simp] theorem State.push_ir (s : State) (v : State → Byte) : (s.push v).ir = s.ir := by simp [State.push_eq]
@[simp] theorem State.push_ie (s : State) (v : State → Byte) : (s.push v).ie = s.ie := by simp [State.push_eq]
@[simp] theorem State.push_eqFlag (s : State) (v : State → Byte) : (s.push v).eq = s.eq := by simp [State.push_eq]
@[simp] theorem State.push_clock (s : State) (v : State → Byte) : (s.push v).clock = s.clock := by simp [State.push_eq]
@[simp] theorem State.push_haltReason (s : State) (v : State → Byte) : (s.push v).haltReason = s.haltReason := by
  simp [State.push_eq]
@[simp] theorem State.push_out (s : State) (v : State → Byte) : (s.push v).out = s.out := by simp [State.push_eq]
@[simp] theorem State.push_inputs (s : State) (v : State → Byte) : (s.push v).inputs = s.inputs := by
  simp [State.push_eq]
@[simp] theorem State.push_sp (s : State) (v : State → Byte) : (s.push v).sp = s.sp - 1 := by simp [State.push_eq]

theorem State.push_reg (s : State) (v : State → Byte) (q : Reg) :
    (s.push v).reg q = if q = SP then s.sp - 1 else s.reg q := by
  simp [State.push_eq, State.setReg_reg]

theorem State.push_memRead {s : State} (h : s.mem.wf = true) (v : State → Byte) (c : Byte) :
    (s.push v).memRead c = if c = s.sp - 1 then v (s.setReg SP (s.sp - 1)) else s.memRead c := by
  rw [State.push_eq, State.memWrite_memRead (by simpa using h)]
  simp

theorem State.push_memRead_ne (s : State) (v : State → Byte) {c : Byte} (h : c ≠ s.sp - 1) :
    (s.push v).memRead c = s.memRead c := by
  rw [State.push_eq, State.memWrite_memRead_ne _ h]
  simp

theorem State.push_wf {s : State} (h : s.mem.wf = true) (v : State → Byte) : (s.push v).mem.wf = true := by
  rw [State.push_eq]
  exact State.memWrite_wf (by simpa using h) _ _

/-- What a pop into a register does: the register takes the byte at SP, then SP moves up by one. -/
theorem State.popReg_eq (s : State) (r : Reg) :
    s.popReg r = (s.setReg r (s.memRead s.sp)).setReg SP ((s.setReg r (s.memRead s.sp)).sp + 1) := rfl

@[simp] theorem State.popReg_pc (s : State) (r : Reg) : (s.popReg r).pc = s.pc := rfl
@[simp] theorem State.popReg_ir (s : State) (r : Reg) : (s.popReg r).ir = s.ir := rfl
@[simp] theorem State.popReg_ie (s : State) (r : Reg) : (s.popReg r).ie = s.ie := rfl
@[simp] theorem State.popReg_eqFlag (s : State) (r : Reg) : (s.popReg r).eq = s.eq := rfl
@[simp] theorem State.popReg_clock (s : State) (r : Reg) : (s.popReg r).clock = s.clock := rfl
@[simp] theorem State.popReg_haltReason (s : State) (r : Reg) : (s.popReg r).haltReason = s.haltReason := rfl
@[simp] theorem State.popReg_out (s : State) (r : Reg) : (s.popReg r).out = s.out := rfl
@[simp] theorem State.popReg_mem (s : State) (r : Reg) : (s.popReg r).mem = s.mem := rfl
@[simp] theorem State.popReg_inputs (s : State) (r : Reg) : (s.popReg r).inputs = s.inputs := rfl
@[simp] theorem State.popReg_memRead (s : State) (r : Reg) (c : Byte) : (s.popReg r).memRead c = s.memRead c := rfl

/-- A pop into SP itself leaves SP at the popped byte plus one. -/
theorem State.popReg_sp (s : State) (r : Reg) : (s.popReg r).sp = (if r = SP then s.memRead s.sp else s.sp) + 1 := by
  rw [State.popReg_eq, State.setReg_sp_self, State.sp_eq, State.setReg_reg]
  by_cases h : r = SP
  · simp [h]
  · simp [h, Ne.symm h, State.sp_eq]

theorem State.popReg_reg (s : State) (r q : Reg) (hq : q ≠ SP) :
    (s.popReg r).reg q = if q = r then s.memRead s.sp else s.reg q := by
  rw [State.popReg_eq, State.setReg_reg_ne _ hq, State.setReg_reg]

@[simp] theorem State.popPc_pc (s : State) : s.popPc.pc = s.memRead s.sp := rfl
@[simp] theorem State.popPc_ir (s : State) : s.popPc.ir = s.ir := rfl
@[simp] theorem State.popPc_ie (s : State) : s.popPc.ie = s.ie := rfl
@[simp] theorem State.popPc_eqFlag (s : State) : s.popPc.eq = s.eq := rfl
@[simp] theorem State.popPc_clock (s : State) : s.popPc.clock = s.clock := rfl
@[simp] theorem State.popPc_haltReason (s : State) : s.popPc.haltReason = s.haltReason := rfl
@[simp] theorem State.popPc_out (s : State) : s.popPc.out = s.out := rfl
@[simp] theorem State.popPc_mem (s : State) : s.popPc.mem = s.mem := rfl
@[simp] theorem State.popPc_inputs (s : State) : s.popPc.inputs = s.inputs := rfl
@[simp] theorem State.popPc_memRead (s : State) (c : Byte) : s.popPc.memRead c = s.memRead c := rfl

theorem State.popPc_reg (s : State) (q : Reg) : s.popPc.reg q = if q = SP then s.sp + 1 else s.reg q := by
  show (State.setReg _ SP (s.sp + 1)).reg q = _
  rw [State.setReg_reg]
  rfl

@[simp] theorem State.popPc_sp (s : State) : s.popPc.sp = s.sp + 1 := by simp [State.sp_eq, State.popPc_reg]

/-! ## Register operands -/

theorem regOf_some_iff (b : Byte) (r : Reg) : regOf b = some r ↔ b.toNat = r.val := by
  unfold regOf
  split
  · simp [Fin.ext_iff]
  · have := r.isLt
    simp
    omega

theorem regOf_none_iff (b : Byte) : regOf b = none ↔ 7 < b.toNat := by
  unfold regOf
  split <;> simp <;> omega

/-- Every register's own operand byte names it. -/
@[simp] theorem regOf_regByte (r : Reg) : regOf (regByte r) = some r := by
  rw [regOf_some_iff]
  have := r.isLt
  simp [regByte, BitVec.toNat_ofNat]
  omega

/-- A byte that names a register is that register's operand byte. -/
theorem eq_regByte_of_regOf {b : Byte} {r : Reg} (h : regOf b = some r) : b = regByte r := by
  rw [regOf_some_iff] at h
  apply BitVec.eq_of_toNat_eq
  have := r.isLt
  simp [regByte, BitVec.toNat_ofNat, h]
  omega

@[simp] theorem withReg_regByte (p : Position) (r : Reg) (s : State) (k : Reg → Host.Outcome State Fault Refusal) :
    withReg p (regByte r) s k = k r := by
  simp [withReg]

theorem withReg_bad (p : Position) {b : Byte} (h : 7 < b.toNat) (s : State)
    (k : Reg → Host.Outcome State Fault Refusal) : withReg p b s k = .next (s.operandFault p b) := by
  simp [withReg, (regOf_none_iff b).2 h]

/-- Every operand byte names a register or is above 7. -/
theorem regByte_or_bad (b : Byte) : (∃ r : Reg, b = regByte r) ∨ 7 < b.toNat := by
  cases h : regOf b with
  | none => exact Or.inr ((regOf_none_iff b).1 h)
  | some r => exact Or.inl ⟨r, eq_regByte_of_regOf h⟩

/-- Everything withReg can do. -/
theorem withReg_cases {p : Position} {b : Byte} {s : State} {k : Reg → Host.Outcome State Fault Refusal}
    {o : Host.Outcome State Fault Refusal} (h : withReg p b s k = o) :
    (∃ r : Reg, b = regByte r ∧ k r = o) ∨ (7 < b.toNat ∧ o = .next (s.operandFault p b)) := by
  rcases regByte_or_bad b with ⟨r, rfl⟩ | hb
  · exact Or.inl ⟨r, rfl, by simpa using h⟩
  · exact Or.inr ⟨hb, by rw [withReg_bad p hb] at h; exact h.symm⟩

/-! ## The interrupt controller -/

/-- The line found is set and no lower line is. -/
theorem lowestSetBit_some_iff (v : Byte) (i : Line) :
    lowestSetBit v = some i ↔ v.getLsbD i.val = true ∧ ∀ j : Line, j < i → v.getLsbD j.val = false := by
  revert i
  revert v
  decide

theorem lowestSetBit_none_iff (v : Byte) : lowestSetBit v = none ↔ v = 0 := by
  revert v
  decide

/-- The timer's update sets bit 0 and no other. -/
theorem State.raiseTimer_eq (s : State) : s.raiseTimer = s.setReg IS (s.reg IS ||| 1) := rfl

/-- Everything whileRunning can do. -/
theorem whileRunning_next {s t : State} {k : Host.Outcome State Fault Refusal} (h : whileRunning s k = .next t) :
    s.clock = .running ∧ k = .next t := by
  unfold whileRunning at h
  cases hc : s.clock <;> simp_all

end Sys2Proof.Machine
end

