-- ==== Sys2Proof/Laws/Interrupt.lean ====
section
/-! SUPPORT. What the interrupt entry and the return from interrupt do, said once. -/

namespace Sys2Proof.Machine

/-- The state an interrupt entry has after its steps 1 to 3: ie cleared, the IS bit cleared, pc pushed. -/
def entryPrefix (s : State) (i : Line) : State :=
  ((s.setIe false).setReg IS (clearBit (s.reg IS) i)).push (·.pc)

/-- The entry, unrolled into its nine pushes and the vector read. -/
theorem State.takeInterrupt_eq (s : State) (i : Line) :
    s.takeInterrupt i =
      let t := ((((((((entryPrefix s i).push (·.reg 0)).push (·.reg 1)).push (·.reg 2)).push (·.reg 3)).push (·.reg 4)).push
        (·.reg 5)).push (·.reg 6)).push (·.reg 7)
      t.setPc (t.memRead (vectorAddress i)) := rfl

section
variable (s : State) (i : Line)

@[simp] theorem State.takeInterrupt_ir : (s.takeInterrupt i).ir = s.ir := by simp [State.takeInterrupt_eq, entryPrefix]
@[simp] theorem State.takeInterrupt_ie : (s.takeInterrupt i).ie = false := by simp [State.takeInterrupt_eq, entryPrefix]
@[simp] theorem State.takeInterrupt_eqFlag : (s.takeInterrupt i).eq = s.eq := by
  simp [State.takeInterrupt_eq, entryPrefix]
@[simp] theorem State.takeInterrupt_clock : (s.takeInterrupt i).clock = s.clock := by
  simp [State.takeInterrupt_eq, entryPrefix]
@[simp] theorem State.takeInterrupt_haltReason : (s.takeInterrupt i).haltReason = s.haltReason := by
  simp [State.takeInterrupt_eq, entryPrefix]
@[simp] theorem State.takeInterrupt_out : (s.takeInterrupt i).out = s.out := by
  simp [State.takeInterrupt_eq, entryPrefix]
@[simp] theorem State.takeInterrupt_inputs : (s.takeInterrupt i).inputs = s.inputs := by
  simp [State.takeInterrupt_eq, entryPrefix]

theorem is_ne_sp : IS ≠ SP := by decide

theorem entryPrefix_sp : (entryPrefix s i).sp = s.sp - 1 := by
  simp [entryPrefix, is_ne_sp]

/-- The entry lowers SP by nine and clears the line's IS bit; no other register changes. -/
theorem State.takeInterrupt_reg (q : Reg) :
    (s.takeInterrupt i).reg q =
      if q = SP then s.sp - 9 else if q = IS then clearBit (s.reg IS) i else s.reg q := by
  have h9 : ∀ x : Byte, x - 1#8 - 1#8 - 1#8 - 1#8 - 1#8 - 1#8 - 1#8 - 1#8 - 1#8 = x - 9#8 := by decide
  by_cases hq : q = SP
  · simp [State.takeInterrupt_eq, State.push_reg, hq, entryPrefix_sp, h9]
  · simp [State.takeInterrupt_eq, entryPrefix, State.push_reg, hq, State.setReg_reg]

@[simp] theorem State.takeInterrupt_sp : (s.takeInterrupt i).sp = s.sp - 9 := by
  simp [State.sp_eq (s.takeInterrupt i), State.takeInterrupt_reg]

/-- The entry jumps to the vector table entry as memory stands after the pushes. -/
theorem State.takeInterrupt_pc : (s.takeInterrupt i).pc = (s.takeInterrupt i).memRead (vectorAddress i) := by
  simp [State.takeInterrupt_eq]

/-- The entry writes its nine stack slots and no other byte. -/
theorem State.takeInterrupt_memRead {s : State} (h : s.mem.wf = true) (i : Line) (c : Byte) :
    (s.takeInterrupt i).memRead c =
      if c = s.sp - 9 then s.sp - 9
      else if c = s.sp - 8 then clearBit (s.reg IS) i
      else if c = s.sp - 7 then s.reg 5
      else if c = s.sp - 6 then s.reg 4
      else if c = s.sp - 5 then s.reg 3
      else if c = s.sp - 4 then s.reg 2
      else if c = s.sp - 3 then s.reg 1
      else if c = s.sp - 2 then s.reg 0
      else if c = s.sp - 1 then s.pc
      else s.memRead c := by
  have hw : (entryPrefix s i).mem.wf = true := State.push_wf (by simpa using h) _
  have hsub : ∀ x : Byte, x - 1 - 1 = x - 2 ∧ x - 2 - 1 = x - 3 ∧ x - 3 - 1 = x - 4 ∧ x - 4 - 1 = x - 5 ∧
      x - 5 - 1 = x - 6 ∧ x - 6 - 1 = x - 7 ∧ x - 7 - 1 = x - 8 ∧ x - 8 - 1 = x - 9 := by decide
  obtain ⟨e2, e3, e4, e5, e6, e7, e8, e9⟩ := hsub s.sp
  have h0 : (entryPrefix s i).memRead c = if c = s.sp - 1 then s.pc else s.memRead c := by
    unfold entryPrefix
    rw [State.push_memRead (by simpa using h)]
    simp [is_ne_sp]
  have hr : ∀ q : Reg, (entryPrefix s i).reg q =
      if q = SP then s.sp - 1 else if q = IS then clearBit (s.reg IS) i else s.reg q := by
    intro q
    by_cases hq : q = SP
    · simp [hq, ← State.sp_eq, entryPrefix_sp]
    · simp [entryPrefix, State.push_reg, hq, State.setReg_reg]
  simp only [State.takeInterrupt_eq, State.setPc_memRead]
  rw [State.push_memRead (by repeat (first | exact hw | apply State.push_wf)),
    State.push_memRead (by repeat (first | exact hw | apply State.push_wf)),
    State.push_memRead (by repeat (first | exact hw | apply State.push_wf)),
    State.push_memRead (by repeat (first | exact hw | apply State.push_wf)),
    State.push_memRead (by repeat (first | exact hw | apply State.push_wf)),
    State.push_memRead (by repeat (first | exact hw | apply State.push_wf)),
    State.push_memRead (by repeat (first | exact hw | apply State.push_wf)),
    State.push_memRead hw, h0]
  simp only [State.push_sp, entryPrefix_sp, e2, e3, e4, e5, e6, e7, e8, e9, State.setReg_reg, State.push_reg, hr,
    show (0 : Reg) ≠ SP by decide, show (1 : Reg) ≠ SP by decide, show (2 : Reg) ≠ SP by decide,
    show (3 : Reg) ≠ SP by decide, show (4 : Reg) ≠ SP by decide, show (5 : Reg) ≠ SP by decide,
    show (7 : Reg) = SP by decide, show (0 : Reg) ≠ IS by decide,
    show (1 : Reg) ≠ IS by decide, show (2 : Reg) ≠ IS by decide, show (3 : Reg) ≠ IS by decide,
    show (4 : Reg) ≠ IS by decide, show (5 : Reg) ≠ IS by decide, show (6 : Reg) = IS by decide, is_ne_sp, if_true, if_false]

theorem State.takeInterrupt_wf {s : State} (h : s.mem.wf = true) (i : Line) : (s.takeInterrupt i).mem.wf = true := by
  have hw : (entryPrefix s i).mem.wf = true := State.push_wf (by simpa using h) _
  simp only [State.takeInterrupt_eq, State.setPc_mem]
  repeat (first | exact hw | apply State.push_wf)

end

/-! ## The return -/

/-- The return, unrolled into its nine pops. -/
theorem State.returnFromInterrupt_eq (s : State) :
    s.returnFromInterrupt =
      ((((((((s.popReg 7).popReg 6).popReg 5).popReg 4).popReg 3).popReg 2).popReg 1).popReg 0).popPc.setIe true := rfl

section
variable (s : State)

@[simp] theorem State.returnFromInterrupt_ir : s.returnFromInterrupt.ir = s.ir := by
  simp [State.returnFromInterrupt_eq]
@[simp] theorem State.returnFromInterrupt_ie : s.returnFromInterrupt.ie = true := by
  simp [State.returnFromInterrupt_eq]
@[simp] theorem State.returnFromInterrupt_eqFlag : s.returnFromInterrupt.eq = s.eq := by
  simp [State.returnFromInterrupt_eq]
@[simp] theorem State.returnFromInterrupt_clock : s.returnFromInterrupt.clock = s.clock := by
  simp [State.returnFromInterrupt_eq]
@[simp] theorem State.returnFromInterrupt_haltReason : s.returnFromInterrupt.haltReason = s.haltReason := by
  simp [State.returnFromInterrupt_eq]
@[simp] theorem State.returnFromInterrupt_out : s.returnFromInterrupt.out = s.out := by
  simp [State.returnFromInterrupt_eq]
@[simp] theorem State.returnFromInterrupt_mem : s.returnFromInterrupt.mem = s.mem := by
  simp [State.returnFromInterrupt_eq]
@[simp] theorem State.returnFromInterrupt_inputs : s.returnFromInterrupt.inputs = s.inputs := by
  simp [State.returnFromInterrupt_eq]
@[simp] theorem State.returnFromInterrupt_memRead (c : Byte) : s.returnFromInterrupt.memRead c = s.memRead c := by
  simp [State.returnFromInterrupt_eq]

theorem ne_sp_of_ne_seven {r : Reg} (h : r ≠ 7) : r ≠ SP := h

/-- The first pop sets SP to the popped byte t7 plus one; the other pops read the slots from there up. -/
theorem State.returnFromInterrupt_pc : s.returnFromInterrupt.pc = s.memRead (s.memRead s.sp + 8) := by
  have h8 : ∀ x : Byte, x + 1#8 + 1#8 + 1#8 + 1#8 + 1#8 + 1#8 + 1#8 + 1#8 = x + 8#8 := by decide
  simp [State.returnFromInterrupt_eq, State.popReg_sp, SP, h8]

theorem State.returnFromInterrupt_reg (q : Reg) :
    s.returnFromInterrupt.reg q =
      if q = SP then s.memRead s.sp + 9 else s.memRead (s.memRead s.sp + BitVec.ofNat 8 (7 - q.val)) := by
  have h : ∀ x : Byte, x + 1#8 + 1#8 = x + 2#8 ∧ x + 2#8 + 1#8 = x + 3#8 ∧ x + 3#8 + 1#8 = x + 4#8 ∧
      x + 4#8 + 1#8 = x + 5#8 ∧ x + 5#8 + 1#8 = x + 6#8 ∧ x + 6#8 + 1#8 = x + 7#8 ∧ x + 7#8 + 1#8 = x + 8#8 ∧
      x + 8#8 + 1#8 = x + 9#8 := by decide
  obtain ⟨e2, e3, e4, e5, e6, e7, e8, e9⟩ := h (s.memRead s.sp)
  by_cases hq : q = SP
  · subst hq
    simp [State.returnFromInterrupt_eq, State.popPc_reg, State.popReg_sp, SP, e2, e3, e4, e5, e6, e7, e8, e9]
  · have hr : ∀ (t : State) (r : Reg), (t.popReg r).reg q = if q = r then t.memRead t.sp else t.reg q :=
      fun t r => State.popReg_reg t r q hq
    have hz : ∀ r : Reg, r = SP ↔ r = 7 := fun r => Iff.rfl
    simp only [State.returnFromInterrupt_eq, State.setIe_reg, State.popPc_reg, hq, if_false, hr, State.popReg_memRead,
      State.popReg_sp, hz]
    fin_cases q <;> simp_all [SP]

end

end Sys2Proof.Machine
end

