-- ==== Sys2Proof/Laws/Exec.lean ====
section
/-! SUPPORT. What exec can do, said once: the result of each instruction on legal operands, the operand fault on the others,
and the inversion `exec_ran` from which the whole-machine facts follow. -/

namespace Sys2Proof.Machine

/-! ## The operand check -/

theorem registerByteOk_regByte (r : Reg) : registerByteOk (regByte r) = true := by
  revert r
  decide

theorem registerByteOk_false {b : Byte} : registerByteOk b = false ↔ 7 < b.toNat := by
  simp [registerByteOk]

theorem registerByteOk_iff (b : Byte) : registerByteOk b = true ↔ ∃ r : Reg, b = regByte r := by
  constructor
  · intro h
    rcases regByte_or_bad b with h' | h'
    · exact h'
    · rw [← registerByteOk_false, h] at h'
      cases h'
  · rintro ⟨r, rfl⟩
    exact registerByteOk_regByte r

/-- A well-formed instruction is one with no bad operand. -/
theorem firstBadOperand_none_iff (i : Instr) : i.firstBadOperand = none ↔ i.wellFormed = true := by
  simp [Instr.firstBadOperand, Instr.wellFormed, List.find?_eq_none]

/-- What an instruction makes of a state: its effect on legal operands, or the fault for its first bad operand. -/
inductive Ran : Instr → State → State → Prop where
  | nop (s : State) : Ran .nop s (s.advance 1)
  | ldi (a : Reg) (imm : Byte) (s : State) : Ran (.ldi (regByte a) imm) s ((s.setReg a imm).advance 3)
  | add (a b : Reg) (s : State) :
      Ran (.add (regByte a) (regByte b)) s ((s.setReg a (aluAdd (s.reg a) (s.reg b))).advance 3)
  | mul (a b : Reg) (s : State) :
      Ran (.mul (regByte a) (regByte b)) s ((s.setReg a (aluMul (s.reg a) (s.reg b))).advance 3)
  | cmp (a b : Reg) (s : State) :
      Ran (.cmp (regByte a) (regByte b)) s ((s.setEq (subsetFlag (s.reg a) (s.reg b))).advance 3)
  | prn (a : Reg) (s : State) : Ran (.prn (regByte a)) s ((s.emit (.num (s.reg a))).advance 2)
  | pra (a : Reg) (s : State) : Ran (.pra (regByte a)) s ((s.emit (.chr (s.reg a))).advance 2)
  | push (a : Reg) (s : State) : Ran (.push (regByte a)) s ((s.push (·.reg a)).advance 2)
  | pop (a : Reg) (s : State) : Ran (.pop (regByte a)) s ((s.popReg a).advance 2)
  | call (a : Reg) (s : State) :
      Ran (.call (regByte a)) s ((s.push (fun u => u.pc + 2)).setPc ((s.push (fun u => u.pc + 2)).reg a))
  | ret (s : State) : Ran .ret s s.popPc
  | jmp (a : Reg) (s : State) : Ran (.jmp (regByte a)) s (s.setPc (s.reg a))
  | jeq (a : Reg) (s : State) :
      Ran (.jeq (regByte a)) s (if s.eq = .isTrue then s.setPc (s.reg a) else s.advance 2)
  | jne (a : Reg) (s : State) :
      Ran (.jne (regByte a)) s (if s.eq = .isFalse then s.setPc (s.reg a) else s.advance 2)
  | st (a b : Reg) (s : State) : Ran (.st (regByte a) (regByte b)) s ((s.memWrite (s.reg a) (s.reg b)).advance 3)
  | iret (s : State) : Ran .iret s s.returnFromInterrupt
  | hlt (s : State) : Ran .hlt s (s.halt (.hlt s.pc))
  | bad (i : Instr) (p : Position) (v : Byte) (s : State) (h : i.firstBadOperand = some (p, v)) :
      Ran i s (s.operandFault p v)

theorem bad_one {i : Instr} {a : Byte} {l : List (Position × Byte)} (hi : i.registerOperands = (.one, a) :: l)
    (h : 7 < a.toNat) : i.firstBadOperand = some (.one, a) := by
  simp [Instr.firstBadOperand, hi, registerByteOk_false.2 h]

theorem bad_two {i : Instr} {a : Reg} {b : Byte} (hi : i.registerOperands = [(.one, regByte a), (.two, b)])
    (h : 7 < b.toNat) : i.firstBadOperand = some (.two, b) := by
  simp [Instr.firstBadOperand, hi, registerByteOk_regByte, registerByteOk_false.2 h]

/-- Inversion of a meaning with one register operand. -/
theorem ran_of_withReg {i : Instr} {a : Byte} {l : List (Position × Byte)} {s t : State} {k : Reg → State}
    (hi : i.registerOperands = (.one, a) :: l) (h : withReg .one a s (fun r => .next (k r)) = .next t)
    (hk : ∀ r, a = regByte r → Ran i s (k r)) : Ran i s t := by
  rcases withReg_cases h with ⟨r, hr, e⟩ | ⟨hb, e⟩
  · cases e
    exact hk r hr
  · cases e
    exact .bad i .one a s (bad_one hi hb)

/-- Inversion of a meaning with two register operands. -/
theorem ran_of_withReg2 {i : Instr} {a b : Byte} {s t : State} {k : Reg → Reg → State}
    (hi : i.registerOperands = [(.one, a), (.two, b)])
    (h : withReg .one a s (fun r => withReg .two b s fun q => .next (k r q)) = .next t)
    (hk : ∀ r q, a = regByte r → b = regByte q → Ran i s (k r q)) : Ran i s t := by
  rcases withReg_cases h with ⟨r, hr, e⟩ | ⟨hb, e⟩
  · rcases withReg_cases e with ⟨q, hq, e'⟩ | ⟨hb, e'⟩
    · cases e'
      exact hk r q hr hq
    · cases e'
      exact .bad i .two b s (bad_two (hr ▸ hi) hb)
  · cases e
    exact .bad i .one a s (bad_one hi hb)

/-- Everything exec can do when it answers a next state. -/
theorem exec_ran {i : Instr} {s t : State} (h : exec i s = .next t) : Ran i s t := by
  cases i with
  | nop => cases h; exact .nop s
  | ldi a imm => exact ran_of_withReg rfl h fun r hr => hr ▸ .ldi r imm s
  | add a b => exact ran_of_withReg2 rfl h fun r q hr hq => hr ▸ hq ▸ .add r q s
  | mul a b => exact ran_of_withReg2 rfl h fun r q hr hq => hr ▸ hq ▸ .mul r q s
  | cmp a b => exact ran_of_withReg2 rfl h fun r q hr hq => hr ▸ hq ▸ .cmp r q s
  | prn a => exact ran_of_withReg rfl h fun r hr => hr ▸ .prn r s
  | pra a => exact ran_of_withReg rfl h fun r hr => hr ▸ .pra r s
  | push a => exact ran_of_withReg rfl h fun r hr => hr ▸ .push r s
  | pop a => exact ran_of_withReg rfl h fun r hr => hr ▸ .pop r s
  | call a => exact ran_of_withReg rfl h fun r hr => hr ▸ .call r s
  | ret => cases h; exact .ret s
  | jmp a => exact ran_of_withReg rfl h fun r hr => hr ▸ .jmp r s
  | jeq a => exact ran_of_withReg rfl h fun r hr => hr ▸ .jeq r s
  | jne a => exact ran_of_withReg rfl h fun r hr => hr ▸ .jne r s
  | st a b => exact ran_of_withReg2 rfl h fun r q hr hq => hr ▸ hq ▸ .st r q s
  | iret => exact Host.Outcome.next.inj h ▸ .iret s
  | hlt => cases h; exact .hlt s

theorem withReg_next (p : Position) (b : Byte) (s : State) (k : Reg → Host.Outcome State Fault Refusal)
    (hk : ∀ r, ∃ t, k r = .next t) : ∃ t, withReg p b s k = .next t := by
  rcases regByte_or_bad b with ⟨r, rfl⟩ | hb
  · simpa using hk r
  · exact ⟨_, withReg_bad p hb s k⟩

/-- Every instruction answers a next state on every state and operands: no meaning stops. -/
theorem exec_next (i : Instr) (s : State) : ∃ t, exec i s = .next t := by
  cases i <;>
    first
      | exact ⟨_, rfl⟩
      | exact withReg_next _ _ _ _ fun _ => ⟨_, rfl⟩
      | exact withReg_next _ _ _ _ fun _ => withReg_next _ _ _ _ fun _ => ⟨_, rfl⟩

/-- exec and its inversion say the same. -/
theorem exec_eq_of_ran {i : Instr} {s t : State} (h : Ran i s t) : exec i s = .next t := by
  cases h with
  | bad _ p v _ h =>
    obtain ⟨u, hu⟩ := exec_next i s
    rw [hu]
    have hw : i.wellFormed ≠ true := fun hw => by rw [(firstBadOperand_none_iff i).2 hw] at h; cases h
    cases exec_ran hu
    case bad p' v' h' =>
      rw [h] at h'
      cases h'
      rfl
    all_goals exact absurd (by simp [Instr.wellFormed, Instr.registerOperands, registerByteOk_regByte]) hw
  | _ => simp [exec, execNop, execLdi, execAdd, execMul, execCmp, execPrn, execPra, execPush, execPop, execCall, execRet,
      execJmp, execJeq, execJne, execSt, execIret, execHlt]

/-! ## What every instruction leaves alone -/

section
variable {i : Instr} {s t : State}

/-- No instruction writes ir (10_state.md R31). -/
theorem exec_ir (h : exec i s = .next t) : t.ir = s.ir := by
  cases exec_ran h <;> try simp [State.operandFault]
  all_goals split <;> simp

/-- No instruction touches the schedule. -/
theorem exec_inputs (h : exec i s = .next t) : t.inputs = s.inputs := by
  cases exec_ran h <;> try simp [State.operandFault]
  all_goals split <;> simp

/-- Every instruction keeps the canonical form of memory. -/
theorem exec_wf (h : exec i s = .next t) (hm : s.mem.wf = true) : t.mem.wf = true := by
  cases exec_ran h <;> try simpa [State.operandFault] using hm
  case push a => simpa using State.push_wf hm _
  case call a => simpa using State.push_wf hm _
  case st a b => simpa using State.memWrite_wf hm _ _
  all_goals split <;> simpa using hm

/-- An instruction either leaves clock and reason as they are or halts the clock with a reason. -/
theorem exec_clock (h : exec i s = .next t) :
    (t.clock = s.clock ∧ t.haltReason = s.haltReason) ∨ (t.clock = .halted ∧ t.haltReason ≠ .none ∧ t.mem = s.mem ∧
      t.pc = s.pc) := by
  cases exec_ran h <;> try simp [State.operandFault]
  all_goals split <;> simp

end

end Sys2Proof.Machine
end

