-- ==== Sys2Proof/Laws/Step.lean ====
section
/-! SUPPORT. What a step can do, said once: the inversion `stepWith_stepped`, from which the whole-machine facts follow. -/

namespace Sys2Proof.Machine

variable {m : OpcodeMap} {s t : State}

@[simp] theorem State.fetchOpcode_eq (s : State) : s.fetchOpcode = s.setIr (s.memRead s.pc) := rfl
@[simp] theorem State.afterInput_eq (s : State) : s.afterInput = s.setInputs s.inputs.tail := rfl

theorem pendingLine_afterInput (s : State) : s.afterInput.pendingLine = s.pendingLine := rfl

/-- With an empty schedule a tick acts next and the state is given to it as it is. -/
theorem nextInput_of_nil (h : s.inputs = []) : s.nextInput = .tick ∧ s.afterInput = s := by
  refine ⟨by simp [State.nextInput, h], ?_⟩
  unfold State.afterInput State.setInputs
  rw [h, List.tail_nil, ← h]

/-- The four ways a tick can go, and the environment's actions (40_engine.md R102, R109). -/
inductive Stepped (m : OpcodeMap) (s : State) : State → Prop where
  | entry (i : Line) (hi : s.nextInput = .tick) (hc : s.clock = .running) (hp : s.pendingLine = some i) :
      Stepped m s (s.afterInput.takeInterrupt i)
  | ran (i : Instr) (rest : List Byte) (t : State) (hi : s.nextInput = .tick) (hc : s.clock = .running)
      (hp : s.pendingLine = none) (hd : decodeWith m s.afterInput.fetchOpcode.fetchedBytes = .ok (i, rest))
      (h : exec i s.afterInput.fetchOpcode = .next t) : Stepped m s t
  | decodeFault (hi : s.nextInput = .tick) (hc : s.clock = .running) (hp : s.pendingLine = none)
      (hd : dispatch m (s.memRead s.pc) = none) : Stepped m s s.afterInput.fetchOpcode.decodeFault
  | timer (hi : s.nextInput = .timer) (hc : s.clock = .running) : Stepped m s s.afterInput.raiseTimer
  | poke (a v : Byte) (hi : s.nextInput = .poke a v) (hc : s.clock = .stopped) : Stepped m s (s.afterInput.memWrite a v)
  | start (hi : s.nextInput = .startClock) (hc : s.clock = .stopped) : Stepped m s s.afterInput.start
  | stop (hi : s.nextInput = .stopClock) (hc : s.clock ≠ .halted) : Stepped m s (s.afterInput.halt .hostStop)
  | stopHalted (hi : s.nextInput = .stopClock) (hc : s.clock = .halted) : Stepped m s s.afterInput

/-- Everything a step can do when it answers a next state. -/
theorem stepWith_stepped (h : stepWith m s = .next t) : Stepped m s t := by
  unfold stepWith at h
  cases hi : s.nextInput with
  | tick =>
    rw [hi] at h
    obtain ⟨hc, h⟩ := whileRunning_next h
    unfold tick at h
    cases hp : s.pendingLine with
    | some i =>
      rw [pendingLine_afterInput, hp] at h
      cases Host.Outcome.next.inj h
      exact .entry i hi hc hp
    | none =>
      rw [pendingLine_afterInput, hp] at h
      simp only [fetchAndRun] at h
      cases hd : decodeWith m s.afterInput.fetchOpcode.fetchedBytes with
      | error e =>
        rw [hd] at h
        cases Host.Outcome.next.inj h
        exact .decodeFault hi hc hp (decodeWith_error hd).1
      | ok p =>
        obtain ⟨i, rest⟩ := p
        rw [hd] at h
        exact .ran i rest t hi hc hp hd h
  | timer =>
    rw [hi] at h
    obtain ⟨hc, h⟩ := whileRunning_next h
    cases Host.Outcome.next.inj h
    exact .timer hi hc
  | poke a v =>
    rw [hi] at h
    simp only [act, envPoke] at h
    cases hc : s.clock <;> simp [hc] at h
    subst h
    exact .poke a v hi hc
  | startClock =>
    rw [hi] at h
    simp only [act, envStartClock] at h
    cases hc : s.clock <;> simp [hc] at h
    subst h
    exact .start hi hc
  | stopClock =>
    rw [hi] at h
    simp only [act, envStopClock] at h
    cases hc : s.clock <;> simp [hc] at h <;> subst h
    · exact .stop hi (by simp [hc])
    · exact .stop hi (by simp [hc])
    · exact .stopHalted hi hc

/-- The model's step is the general step under the model's opcode map. -/
theorem step_eq (s : State) : step s = stepWith opcodeMap s := rfl

/-- A tick that enters no interrupt and decodes an instruction runs it. -/
theorem stepWith_of_decode {i : Instr} {rest : List Byte} (hi : s.nextInput = .tick) (hc : s.clock = .running)
    (hp : s.pendingLine = none) (hd : decodeWith m s.afterInput.fetchOpcode.fetchedBytes = .ok (i, rest)) :
    stepWith m s = exec i s.afterInput.fetchOpcode := by
  have hc' : s.afterInput.clock = .running := hc
  unfold stepWith act
  rw [hi]
  simp only [whileRunning, hc', tick, pendingLine_afterInput, hp, fetchAndRun, hd]

end Sys2Proof.Machine
end

