-- ==== Sys2Proof/Machine/Assembly.lean ====
section
/-! DEFINITION. The assembler syntax of an instruction (30_encoding.md R81). It has no part in what the machine does. -/

namespace Sys2Proof

/-- The mnemonic as written. -/
def Mnemonic.text : Mnemonic → String
  | .nop => "NOP"
  | .ldi => "LDI"
  | .add => "ADD"
  | .mul => "MUL"
  | .cmp => "CMP"
  | .prn => "PRN"
  | .pra => "PRA"
  | .push => "PUSH"
  | .pop => "POP"
  | .call => "CALL"
  | .ret => "RET"
  | .jmp => "JMP"
  | .jeq => "JEQ"
  | .jne => "JNE"
  | .st => "ST"
  | .iret => "IRET"
  | .hlt => "HLT"

/-- A register operand as written: R0 to R7, and R with its number for a byte that names no register. -/
def registerText (b : Byte) : String := "R" ++ toString b.toNat

/-- An immediate as written, in decimal. -/
def immediateText (b : Byte) : String := toString b.toNat

/-- The mnemonic, then its operands separated by commas, operand 1 first (30_encoding.md R81). -/
def Instr.text (i : Instr) : String :=
  i.mnemonic.text ++
    match i.mnemonic.format, i.operandBytes with
    | .r, [a] => " " ++ registerText a
    | .rr, [a, b] => " " ++ registerText a ++ ", " ++ registerText b
    | .ri, [a, v] => " " ++ registerText a ++ ", " ++ immediateText v
    | _, _ => ""

end Sys2Proof
end

