-- ==== Sys2Proof/Tests/Slice0.lean ====
section
/-! SUPPORT. The model's own tests. Expected results come from the spec: the encodings of 30_encoding.md R71 and R75, the worked
examples of the instruction rules, and the vectors of 95_test_vectors.md (named V-… or L1-…). Then, for every statement with
hypotheses, a theorem that concrete data meet them together. -/

namespace Sys2Proof.Tests

open Sys2Proof.Machine

/-! ## Well-formedness: each check refuses an ill-formed term (R72, R104) -/

theorem test_wf_ldi_bad : (Instr.ldi 8 1).wellFormed = false := by decide
theorem test_wf_ldi_immediate_any : (Instr.ldi 0 255).wellFormed = true := by decide
theorem test_wf_add_bad_one : (Instr.add 8 0).wellFormed = false := by decide
theorem test_wf_add_bad_two : (Instr.add 0 9).wellFormed = false := by decide
theorem test_wf_mul_bad_one : (Instr.mul 255 0).wellFormed = false := by decide
theorem test_wf_mul_bad_two : (Instr.mul 0 8).wellFormed = false := by decide
theorem test_wf_cmp_bad_one : (Instr.cmp 8 7).wellFormed = false := by decide
theorem test_wf_cmp_bad_two : (Instr.cmp 7 8).wellFormed = false := by decide
theorem test_wf_st_bad_one : (Instr.st 16 7).wellFormed = false := by decide
theorem test_wf_st_bad_two : (Instr.st 7 16).wellFormed = false := by decide
theorem test_wf_one_operand_bad :
    [Instr.prn 8, .pra 8, .push 8, .pop 8, .call 8, .jmp 8, .jeq 8, .jne 8].all (fun i => !i.wellFormed) = true := by
  decide
theorem test_wf_one_operand_good :
    [Instr.prn 7, .pra 7, .push 7, .pop 7, .call 7, .jmp 7, .jeq 7, .jne 7].all (fun i => i.wellFormed) = true := by
  decide

/-! ## Decoding: one word of every constructor, written out bit by bit (R71, R75) -/

theorem test_decode_nop : decode [0b00000000#8] = .ok (.nop, []) := rfl
theorem test_decode_hlt : decode [0b00000001#8] = .ok (.hlt, []) := rfl
theorem test_decode_ret : decode [0b00010001#8] = .ok (.ret, []) := rfl
theorem test_decode_iret : decode [0b00010011#8] = .ok (.iret, []) := rfl
theorem test_decode_push : decode [0b01000101#8, 0b00000111#8] = .ok (.push 7, []) := rfl
theorem test_decode_pop : decode [0b01000110#8, 0b00000010#8] = .ok (.pop 2, []) := rfl
theorem test_decode_prn : decode [0b01000111#8, 0b00000110#8] = .ok (.prn 6, []) := rfl
theorem test_decode_pra : decode [0b01001000#8, 0b00000101#8] = .ok (.pra 5, []) := rfl
theorem test_decode_call : decode [0b01010000#8, 0b00000001#8] = .ok (.call 1, []) := rfl
theorem test_decode_jmp : decode [0b01010100#8, 0b00000011#8] = .ok (.jmp 3, []) := rfl
theorem test_decode_jeq : decode [0b01010101#8, 0b00000100#8] = .ok (.jeq 4, []) := rfl
theorem test_decode_jne : decode [0b01010110#8, 0b00000001#8] = .ok (.jne 1, []) := rfl
theorem test_decode_ldi : decode [0b10000010#8, 0b00000010#8, 0b11001000#8] = .ok (.ldi 2 200, []) := rfl
theorem test_decode_st : decode [0b10000100#8, 0b00000010#8, 0b00000011#8] = .ok (.st 2 3, []) := rfl
theorem test_decode_add : decode [0b10100000#8, 0b00000111#8, 0b00000001#8] = .ok (.add 7 1, []) := rfl
theorem test_decode_mul : decode [0b10100010#8, 0b00000000#8, 0b00000001#8] = .ok (.mul 0 1, []) := rfl
theorem test_decode_cmp : decode [0b10100111#8, 0b00000010#8, 0b00000011#8] = .ok (.cmp 2 3, []) := rfl

/-- The whole operand byte is kept: it is not masked to three bits (R72). -/
theorem test_decode_keeps_operand : decode [0xA0#8, 0x08#8, 0x09#8] = .ok (.add 8 9, []) := rfl
/-- The bytes after the instruction are left (R80). -/
theorem test_decode_rest : decode [0x47#8, 0x00#8, 0x01#8] = .ok (.prn 0, [0x01#8]) := rfl
/-- 0xFF is unassigned (R76), and so is 0x03 in the default table (V-ENG-9). -/
theorem test_decode_ff : decode [0xFF#8] = .error (.noHandler 0xFF) := rfl
theorem test_decode_03 : decode [0x03#8, 0#8, 0#8] = .error (.noHandler 3) := rfl
theorem test_decode_truncated : decode [0x82#8, 0x00#8] = .error .truncated := rfl
/-- The table's words count their bits from the first byte up. -/
theorem test_table_word : decodeTableWord 24 0xC80282 = some (.ldi 2 200) := rfl
theorem test_table_word_short : decodeTableWord 8 0xA0 = some (.add 0 0) := rfl
/-- The literals that 00_scope.md R3 calls normative: 8 registers, the indices 5, 6 and 7, the vector base 0xF8 and its 8
entries, 0xFF unassigned, and the widths, which are those of the source's table in 30_encoding.md R74. -/
theorem test_source_literals :
    State.reset.regs.toList.length = 8 ∧ (IM, IS, SP) = (5, 6, 7) ∧ vectorBase = 0xF8 ∧ Line.all.length = 8 ∧
    Line.all.map vectorAddress = [0xF8, 0xF9, 0xFA, 0xFB, 0xFC, 0xFD, 0xFE, 0xFF] ∧ dispatch opcodeMap 0xFF = none ∧
    Mnemonic.all.map Mnemonic.width = [1, 3, 3, 3, 3, 2, 2, 2, 2, 2, 1, 2, 2, 2, 3, 1, 1] := by decide
theorem test_maps_valid : OpcodeMap.published.Valid ∧ OpcodeMap.earlierEdition.Valid ∧ opcodeMap.Valid := by decide

/-- R77: in the default table the two top bits of an opcode byte count its operand bytes. -/
theorem test_published_width_field :
    Mnemonic.all.all (fun x => (OpcodeMap.published.byteOf x).toNat / 64 + 1 == x.width) = true := by decide
/-- R81's examples. -/
theorem test_text :
    (Instr.ldi 0 8).text = "LDI R0, 8" ∧ (Instr.mul 0 1).text = "MUL R0, R1" ∧ (Instr.prn 0).text = "PRN R0" ∧
      Instr.hlt.text = "HLT" := by decide

/-! ## One step on a small state -/

/-- A running machine at a pc with some registers set and bytes placed, else as at reset. -/
def running (pc : Byte) (regs : List (Reg × Byte)) (bytes : List (Byte × Byte)) : State :=
  let s := bytes.foldl (fun t p => t.memWrite p.1 p.2) ((State.reset.setPc pc).start)
  regs.foldl (fun t p => t.setReg p.1 p.2) s

/-- The step answers a next state with a property. -/
def stepsTo (s : State) (f : State → Bool) : Bool :=
  match step s with
  | .next t => f t
  | .fault _ => false
  | .refused _ => false

/-- V-NOP-2. -/
theorem test_nop : stepsTo (running 0xFF [] []) (fun t => t.pc == 0) = true := by decide
/-- R123's example and V-ENG-8, the wrap of the operand addresses. -/
theorem test_ldi : stepsTo (running 0x10 [] [(0x10, 0x82), (0x11, 2), (0x12, 200)])
    (fun t => t.reg 2 == 200 && t.pc == 0x13 && t.ir == 0x82) = true := by decide
theorem test_ldi_wrap : stepsTo (running 0xFE [] [(0xFE, 0x82), (0xFF, 3), (0x00, 7)])
    (fun t => t.reg 3 == 7 && t.pc == 0x01) = true := by decide
/-- V-ADD-1, V-ADD-6. -/
theorem test_add : stepsTo (running 0 [(0, 200), (1, 100)] [(0, 0xA0), (1, 0), (2, 1)]) (fun t => t.reg 0 == 44) = true := by
  decide
theorem test_add_sp : stepsTo (running 0 [(1, 0x10)] [(0, 0xA0), (1, 7), (2, 1)]) (fun t => t.sp == 0x04) = true := by decide
/-- V-MUL-3, V-MUL-4. -/
theorem test_mul : stepsTo (running 0 [(0, 255), (1, 255)] [(0, 0xA2), (1, 0), (2, 1)]) (fun t => t.reg 0 == 1) = true := by
  decide
theorem test_mul_self : stepsTo (running 0 [(0, 200)] [(0, 0xA2)]) (fun t => t.reg 0 == 64) = true := by decide
/-- V-CMP-8 (not equal, yet true), V-CMP-9. -/
theorem test_cmp_subset : stepsTo (running 0 [(0, 1), (1, 3)] [(0, 0xA7), (1, 0), (2, 1)])
    (fun t => t.eq == .isTrue && t.reg 0 == 1) = true := by decide
theorem test_cmp_not_subset : stepsTo (running 0 [(0, 3), (1, 1)] [(0, 0xA7), (1, 0), (2, 1)])
    (fun t => t.eq == .isFalse) = true := by decide
/-- V-OUT-3 with its text, V-OUT-6. -/
theorem test_prn : stepsTo (running 0 [(0, 255)] [(0, 0x47)]) (fun t => t.out == [.num 255] && t.pc == 2) = true := by decide
theorem test_num_text : numText 255 = "255" ∧ numText 0 = "0" ∧ numText 72 = "72" := by decide
/-- V-OUT-4, V-OUT-6. -/
theorem test_chr_text : (OutEvent.chr 65).text = some "A" ∧ (OutEvent.chr 200).text = none := by decide
theorem test_pra : stepsTo (running 0 [(0, 200)] [(0, 0x48)]) (fun t => t.out == [.chr 200]) = true := by decide
/-- V-PUSH-2 (into the vector table), V-PUSH-3 (PUSH R7). -/
theorem test_push_wrap : stepsTo (running 0x10 [(7, 0), (1, 9)] [(0x10, 0x45), (0x11, 1)])
    (fun t => t.sp == 0xFF && t.memRead 0xFF == 9 && t.pc == 0x12) = true := by decide
theorem test_push_sp : stepsTo (running 0 [] [(0, 0x45), (1, 7)])
    (fun t => t.sp == 0xF3 && t.memRead 0xF3 == 0xF3) = true := by decide
/-- V-POP-2, V-POP-3 (POP R7). -/
theorem test_pop_wrap : stepsTo (running 0 [(7, 0xFF)] [(0, 0x46), (0xFF, 7)])
    (fun t => t.reg 0 == 7 && t.sp == 0 && t.memRead 0xFF == 7) = true := by decide
theorem test_pop_sp : stepsTo (running 0 [(7, 0xF3)] [(0, 0x46), (1, 7), (0xF3, 0x80)]) (fun t => t.sp == 0x81) = true := by
  decide
/-- V-ST-1. -/
theorem test_st : stepsTo (running 0 [(0, 0xF8), (1, 20)] [(0, 0x84), (1, 0), (2, 1)])
    (fun t => t.memRead 0xF8 == 20 && t.pc == 3) = true := by decide
/-- Storing 0x00 leaves the canonical form: no cell is listed for it. -/
theorem test_st_zero_unlists : stepsTo (running 0x20 [(0, 0x30)] [(0x20, 0x84), (0x22, 1), (0x30, 5)])
    (fun t => t.memRead 0x30 == 0 && t.mem.wf && t.mem.length == 2) = true := by decide
/-- V-CALL-2 (the return address wraps), V-CALL-3 (CALL R7). -/
theorem test_call_wrap : stepsTo (running 0xFE [(1, 0x20)] [(0xFE, 0x50), (0xFF, 1)])
    (fun t => t.memRead 0xF3 == 0 && t.pc == 0x20 && t.sp == 0xF3) = true := by decide
theorem test_call_sp : stepsTo (running 0x10 [] [(0x10, 0x50), (0x11, 7)])
    (fun t => t.memRead 0xF3 == 0x12 && t.pc == 0xF3) = true := by decide
/-- V-RET-2. -/
theorem test_ret : stepsTo (running 5 [(7, 0xFF)] [(5, 0x11), (0xFF, 0x44)]) (fun t => t.pc == 0x44 && t.sp == 0) = true := by
  decide
/-- V-JMP-1. -/
theorem test_jmp : stepsTo (running 0 [(3, 0x40)] [(0, 0x54), (1, 3)]) (fun t => t.pc == 0x40) = true := by decide
/-- V-JEQ-1, V-JEQ-3. -/
theorem test_jeq_taken : stepsTo ((running 0x10 [(1, 30)] [(0x10, 0x55), (0x11, 1)]).setEq .isTrue) (fun t => t.pc == 30) = true := by
  decide
theorem test_jeq_unset : stepsTo (running 0x10 [(1, 30)] [(0x10, 0x55), (0x11, 1)]) (fun t => t.pc == 0x12) = true := by decide
/-- V-JNE-1, V-JNE-3. -/
theorem test_jne_taken : stepsTo ((running 0x10 [(1, 15)] [(0x10, 0x56), (0x11, 1)]).setEq .isFalse) (fun t => t.pc == 15) = true := by
  decide
theorem test_jne_unset : stepsTo (running 0x10 [(1, 15)] [(0x10, 0x56), (0x11, 1)]) (fun t => t.pc == 0x12) = true := by decide
/-- V-HLT-1. -/
theorem test_hlt : stepsTo (running 11 [] [(11, 1)])
    (fun t => t.clock == .halted && t.haltReason == .hlt 11 && t.pc == 11) = true := by decide
/-- V-IRET-2: no interrupt active, and the pops run through the vector table. -/
theorem test_iret : stepsTo (running 0x20 [] [(0x20, 0x13), (0xF4, 0xF4), (0xF8, 0x40), (0xFC, 0x20)])
    (fun t => t.reg 3 == 0x40 && t.reg 0 == 0 && t.pc == 0x20 && t.sp == 0xFD && t.ie) = true := by decide

/-! ## Faults, interrupts and the environment -/

/-- V-ENG-1. -/
theorem test_decode_fault : stepsTo (running 0x10 [] [(0x10, 0xFF)])
    (fun t => t.haltReason == .decodeFault 0x10 0xFF && t.clock == .halted && t.ir == 0xFF && t.pc == 0x10) = true := by
  decide
/-- V-ENG-4, V-ENG-5 (position 1 first), V-ENG-7 (an operand that would not be used). -/
theorem test_operand_fault_two : stepsTo (running 0 [] [(0, 0xA0), (2, 9)])
    (fun t => t.haltReason == .operandFault 0 0xA0 .two 9) = true := by decide
theorem test_operand_fault_one : stepsTo (running 0 [] [(0, 0xA0), (1, 8), (2, 9)])
    (fun t => t.haltReason == .operandFault 0 0xA0 .one 8) = true := by decide
theorem test_operand_fault_jeq : stepsTo (running 0 [] [(0, 0x55), (1, 8)])
    (fun t => t.haltReason == .operandFault 0 0x55 .one 8 && t.clock == .halted) = true := by decide
/-- L1-5: the entry. -/
theorem test_entry : stepsTo (running 0x30 [(5, 1), (6, 1)] [(0xF8, 0x80)])
    (fun t => !t.ie && t.reg 6 == 0 && t.sp == 0xEB && t.pc == 0x80 && t.memRead 0xF3 == 0x30 && t.memRead 0xED == 1 &&
      t.memRead 0xEC == 0 && t.memRead 0xEB == 0xEB && t.ir == 0) = true := by decide
/-- V-INT-4: the pushes reach the vector table and the vector read sees them. -/
theorem test_entry_reads_own_push : stepsTo (running 0x30 [(5, 1), (6, 1), (7, 1)] [])
    (fun t => t.pc == 0xF8 && t.sp == 0xF8 && t.memRead 0 == 0x30 && t.memRead 0xFA == 1 && t.memRead 0xF8 == 0xF8) = true := by
  decide
/-- V-INT-1 (line 2, the vector at 0xFA). -/
theorem test_entry_masked : stepsTo (running 0x30 [(5, 4), (6, 6)] [(0xFA, 0x55)]) (fun t => t.pc == 0x55 && t.reg 6 == 2) = true := by
  decide
/-- V-INT-3 (ie false), V-INT-5 (all masked): the instruction runs. -/
theorem test_no_entry_ie : stepsTo ((running 0x30 [(5, 1), (6, 1)] []).setIe false) (fun t => t.pc == 0x31) = true := by decide
theorem test_no_entry_masked : stepsTo (running 0x30 [(6, 0xFF)] []) (fun t => t.pc == 0x31) = true := by decide
/-- R215: the timer between two ticks. -/
theorem test_timer : stepsTo ((running 0 [(6, 2)] []).setInputs [.timer, .tick]) (fun t => t.reg 6 == 3 && t.inputs == [.tick]) = true := by
  decide
/-- R231: a poke, then a start. -/
theorem test_poke : stepsTo (State.reset.setInputs [.poke 0xF8 9, .startClock])
    (fun t => t.memRead 0xF8 == 9 && t.clock == .stopped) = true := by decide
theorem test_start : stepsTo (State.reset.setInputs [.startClock]) (fun t => t.clock == .running) = true := by decide
/-- R232. -/
theorem test_stop : stepsTo ((running 0 [] []).setInputs [.stopClock]) (fun t => t.haltReason == .hostStop) = true := by decide
/-- R231, D19: a poke while running is refused. R100: no tick while stopped or halted. -/
theorem test_poke_refused : step ((running 0 [] []).setInputs [.poke 0 0]) = .refused (.pokeAfterStart .running) := rfl
theorem test_reset_has_no_tick : step State.reset = .fault .clockStopped := rfl
theorem test_halted_has_no_tick : step (State.reset.halt (.hlt 0)) = .fault .clockHalted := rfl
/-- R25, D10: the default SP_RESET. -/
theorem test_reset_sp : State.reset.sp = 0xF4 := by decide
theorem test_reset_wf : State.reset.mem.wf = true := by decide
/-- withFetchWord makes the very next step run the word, whatever is scheduled or pending. -/
theorem test_fetch_word : stepsTo (State.reset.withFetchWord 24 0x090182) (fun t => t.reg 1 == 9 && t.pc == 3) = true := by
  decide
theorem test_fetch_word_busy :
    stepsTo (((running 0xFF [(5, 1), (6, 1)] []).setInputs [.timer]).withFetchWord 8 0x01)
      (fun t => t.haltReason == .hlt 0xFF && t.inputs == [.timer]) = true := by decide

end Sys2Proof.Tests
end

