-- ==== Sys2Proof/Tests/Witnesses.lean ====
section
/-! SUPPORT. For every statement with hypotheses, concrete data that meet them together, clause by clause and at the boundary
values of their ranges. The theorem witness_<Statement> belongs to Obligations.<Statement>. -/

namespace Sys2Proof.Tests

open Sys2Proof.Machine

/-! ## Encoding -/

theorem witness_DecodeInvertsEncode :
    OpcodeMap.earlierEdition.Valid ∧ OpcodeMap.published.Valid ∧ (Instr.st 7 0).wellFormed = true := by decide
theorem witness_EncodeInvertsDecode :
    decodeWith .earlierEdition [0x9A#8, 7#8, 255#8, 1#8] = .ok (.st 7 255, [1#8]) := rfl
/-- A byte that a mnemonic is assigned, and one that none is. -/
theorem witness_OpcodeByteDecides :
    OpcodeMap.published.Valid ∧ OpcodeMap.published.byteOf .cmp = 0xA7 ∧ 0xFF#8 ∉ OpcodeMap.published.bytes := by decide
theorem witness_IllegalOpcodeCount : OpcodeMap.earlierEdition.Valid := by decide

/-! ## The engine -/

/-- The boundaries: 8 is bad, 7 is good. -/
theorem witness_FirstBadOperandFaults :
    7 < (8#8).toNat ∧ 7 < (255#8).toNat ∧ (7#8).toNat ≤ 7 ∧ (0#8).toNat ≤ 7 := by decide

/-- A running machine about to tick, with LDI R3, 7 at the top of memory (V-ENG-8). -/
def ldiAtTop : State := running 0xFE [] [(0xFE, 0x82), (0xFF, 3), (0x00, 7)]

theorem witness_StepRunsDecodedInstruction :
    (ldiAtTop.nextInput = .tick ∧ ldiAtTop.clock = .running ∧ ldiAtTop.pendingLine = none) ∧
    decodeWith .published [ldiAtTop.memRead ldiAtTop.pc, ldiAtTop.memRead (ldiAtTop.pc + 1), ldiAtTop.memRead (ldiAtTop.pc + 2)] =
      .ok (.ldi 3 7, []) := ⟨by decide, rfl⟩
theorem witness_StepRunsEncodedBytes :
    OpcodeMap.published.Valid ∧ ldiAtTop.nextInput = .tick ∧ ldiAtTop.clock = .running ∧ ldiAtTop.pendingLine = none ∧
    ∀ (k : Nat) (h : k < (encodeWith .published (.ldi 3 7)).length),
      ldiAtTop.memRead (ldiAtTop.pc + BitVec.ofNat 8 k) = (encodeWith .published (.ldi 3 7))[k] := by decide
/-- A tick at the stopped clock of reset, a timer event at a halted clock. -/
theorem witness_NoStepUnlessRunning :
    (State.reset.nextInput = .tick ∧ State.reset.clock = .stopped) ∧
    (((State.reset.halt .hostStop).setInputs [.timer]).nextInput = .timer ∧
      ((State.reset.halt .hostStop).setInputs [.timer]).clock = .halted) := by decide
theorem witness_HaltedIsFinal :
    ∃ t, ((State.reset.halt (.hlt 0)).setInputs [.stopClock]).clock = .halted ∧
      stepWith .published ((State.reset.halt (.hlt 0)).setInputs [.stopClock]) = .next t := ⟨_, rfl, rfl⟩
/-- One run for each way to end, and one that goes on. -/
theorem witness_RunEndsOnlyAsListed :
    (∃ t, stepWith .published (running 0 [] []) = .next t ∧ t.clock = .running) ∧
    (∃ t, stepWith .published (running 0 [] [(0, 1)]) = .next t ∧ t.haltReason = .hlt 0) ∧
    (∃ t, stepWith .published (running 0 [] [(0, 0xFF)]) = .next t ∧ t.haltReason = .decodeFault 0 0xFF) ∧
    (∃ t, stepWith .published (running 0 [] [(0, 0xA0), (2, 8)]) = .next t ∧
      t.haltReason = .operandFault 0 0xA0 .two 8) ∧
    (∃ t, stepWith .published ((running 0 [] []).setInputs [.stopClock]) = .next t ∧ t.haltReason = .hostStop) :=
  ⟨⟨_, rfl, rfl⟩, ⟨_, rfl, rfl⟩, ⟨_, rfl, rfl⟩, ⟨_, rfl, rfl⟩, ⟨_, rfl, rfl⟩⟩
theorem witness_EveryTickCompletes :
    (running 0xFF [] []).nextInput = .tick ∧ (running 0xFF [] []).clock = .running := by decide
theorem witness_DecodeFaultHalts :
    let s := running 0xFF [] [(0xFF, 0xFF)]
    s.nextInput = .tick ∧ s.clock = .running ∧ s.pendingLine = none ∧
      ∀ x ∈ Mnemonic.all, OpcodeMap.published.byteOf x ≠ s.memRead s.pc := by decide
theorem witness_IrIsNotObservable : ldiAtTop.nextInput = .tick ∧ ldiAtTop.pendingLine = none := by decide

/-! ## The instructions -/

/-- Canonical memories, listing the first and the last address among them. -/
theorem witness_PushStoresBelow : (running 0 [(7, 0)] [(0, 0x45), (0xFF, 9)]).mem.wf = true := by decide
theorem witness_StStoresAtRegister : (running 0 [(0, 0xFF)] [(0, 0x84), (0xFF, 9)]).mem.wf = true := by decide
theorem witness_CallPushesReturnAddress : (running 0xFE [(1, 7)] [(0xFE, 0x50), (0xFF, 1)]).mem.wf = true := by decide
/-- A destination that is not SP, and SP itself. -/
theorem witness_PopLoadsFromStack : (0 : Reg) ≠ SP ∧ (6 : Reg) ≠ SP ∧ (7 : Reg) = SP := by decide
/-- A pair in the subset relation, and one out of it at the top bit. -/
theorem witness_CmpIsSubsetTest :
    (∀ k < 8, (0x06#8).getLsbD k = true → (0x0E#8).getLsbD k = true) ∧
    (∃ k < 8, (0x80#8).getLsbD k = true ∧ (0x7F#8).getLsbD k = false) := by decide
/-- eq at each of its three values. -/
theorem witness_JeqTakenIffTrue :
    (State.reset.setEq .isTrue).eq = .isTrue ∧ (State.reset.setEq .isFalse).eq = .isFalse ∧ State.reset.eq = .unset := by
  decide
theorem witness_JneTakenIffFalse :
    (State.reset.setEq .isFalse).eq = .isFalse ∧ (State.reset.setEq .isTrue).eq = .isTrue ∧ State.reset.eq = .unset := by
  decide

/-! ## Whole-machine rules -/

theorem witness_RegistersWrittenOnlyAsListed :
    (∃ t, exec (.pop 6) State.reset = .next t) ∧ regByte 5 ∉ regsWritten (.pop 6) ∧
    (0 : Reg) ∉ ([6, 7] : List Reg) := ⟨⟨_, rfl⟩, by decide, by decide⟩
/-- A byte that CALL does not store to, and any byte for an instruction that stores nothing. -/
theorem witness_MemoryWrittenOnlyWhereListed :
    (∃ t, exec (.call 0) State.reset = .next t) ∧ storeAddress (.call 0) State.reset ≠ some 0xF4 ∧
    (∃ t, exec (.cmp 0 1) State.reset = .next t) ∧ storeAddress (.cmp 0 1) State.reset ≠ some 0xFF :=
  ⟨⟨_, rfl⟩, by decide, ⟨_, rfl⟩, by decide⟩
theorem witness_PcAdvancesByWidth :
    (Instr.st 7 0).wellFormed = true ∧ (Instr.st 7 0).mnemonic ∉ [Mnemonic.call, .ret, .jmp, .jeq, .jne, .iret, .hlt] ∧
    ∃ t, exec (.st 7 0) State.reset = .next t := ⟨by decide, by decide, _, rfl⟩
/-- LDI R5, 3 changes IM; a line that is taken. -/
theorem witness_ImWrittenOnlyByInstructions :
    (∃ t, stepWith .published (running 0 [] [(0, 0x82), (1, 5), (2, 3)]) = .next t ∧
      t.reg IM ≠ (running 0 [] [(0, 0x82), (1, 5), (2, 3)]).reg IM) ∧
    (running 0 [(5, 0x80), (6, 0x80)] []).pendingLine = some 7 := ⟨⟨_, rfl, by decide⟩, by decide⟩
/-- IS changed by each of its three writers. -/
theorem witness_IsHasThreeWriters :
    (running 0 [(5, 1), (6, 1)] []).pendingLine = some 0 ∧
    (∃ t, stepWith .published (running 0 [] [(0, 0x82), (1, 6), (2, 3)]) = .next t ∧ t.reg IS ≠ 0) ∧
    (∃ t, stepWith .published (running 0 [(5, 1), (6, 1)] []) = .next t ∧ t.reg IS ≠ 1) ∧
    (∃ t, stepWith .published ((running 0 [] []).setInputs [.timer]) = .next t ∧ t.reg IS ≠ 0) :=
  ⟨by decide, ⟨_, rfl, by decide⟩, ⟨_, rfl, by decide⟩, ⟨_, rfl, by decide⟩⟩
/-- IRET, an instruction that is not IRET, ie false, and a step of each kind that changes ie. -/
theorem witness_IeGatesInterrupts :
    (∃ t, exec .iret State.reset = .next t) ∧ (Instr.nop ≠ .iret ∧ ∃ t, exec .nop State.reset = .next t) ∧
    (State.reset.setIe false).ie = false ∧
    (∃ t, stepWith .published (running 0 [(5, 1), (6, 1)] []) = .next t ∧ t.ie ≠ true) ∧
    (∃ t, stepWith .published ((running 0 [] [(0, 0x13)]).setIe false) = .next t ∧ t.ie ≠ false) :=
  ⟨⟨_, rfl⟩, ⟨by decide, _, rfl⟩, rfl, ⟨_, rfl, by decide⟩, ⟨_, rfl, by decide⟩⟩
theorem witness_EqWrittenOnlyByCmp :
    ∃ t, stepWith .published (running 0 [] [(0, 0xA7)]) = .next t ∧ t.eq ≠ (running 0 [] [(0, 0xA7)]).eq :=
  ⟨_, rfl, by decide⟩
/-- A step that leaves out alone, one that prints a number, one that prints a character. -/
theorem witness_OutGrowsOnlyByPrnAndPra :
    (∃ t, stepWith .published (running 0 [] []) = .next t ∧ t.out = []) ∧
    (∃ t, stepWith .published (running 0 [] [(0, 0x47), (1, 7)]) = .next t ∧ t.out = [.num 0xF4]) ∧
    (∃ t, stepWith .published (running 0 [] [(0, 0x48)]) = .next t ∧ t.out = [.chr 0]) :=
  ⟨⟨_, rfl, rfl⟩, ⟨_, rfl, rfl⟩, ⟨_, rfl, rfl⟩⟩

/-! ## Interrupts -/

/-- A machine that enters line 2 (V-INT-1), and one that enters none. -/
theorem witness_LowestEnabledLineIsTaken :
    (running 0x30 [(5, 4), (6, 6)] []).pendingLine = some 2 ∧ (running 0x30 [(6, 0xFF)] []).pendingLine = none ∧
    (running 0x30 [(5, 4), (6, 6)] []).nextInput = .tick ∧ (running 0x30 [(5, 4), (6, 6)] []).clock = .running := by decide
theorem witness_EntryStacksFrame : (running 0x30 [(7, 0)] [(0, 1), (0xFF, 9)]).mem.wf = true := by decide
/-- The vector of line 7 outside the nine slots of SP = 0xF4, and the vector of line 0 in the pc's slot for SP = 0xF9. -/
theorem witness_EntryJumpsThroughVector :
    (0xF8#8 + BitVec.ofNat 8 (7 : Line).val ∉ [0xF4#8 - 1, 0xF4#8 - 2, 0xF4#8 - 3, 0xF4#8 - 4, 0xF4#8 - 5, 0xF4#8 - 6,
      0xF4#8 - 7, 0xF4#8 - 8, 0xF4#8 - 9]) ∧ State.reset.sp = 0xF4 ∧
    (running 0x30 [(7, 0xF9)] []).mem.wf = true ∧
    0xF8#8 + BitVec.ofNat 8 (0 : Line).val = (running 0x30 [(7, 0xF9)] []).sp - 1 := by
  decide
theorem witness_EntryFrame :
    (running 0x30 [(5, 0x80), (6, 0x80)] []).nextInput = .tick ∧ (running 0x30 [(5, 0x80), (6, 0x80)] []).clock = .running ∧
    (running 0x30 [(5, 0x80), (6, 0x80)] []).pendingLine = some 7 := by decide
/-- A handler that changed R0, R5 and out, and kept SP and the frame. -/
theorem witness_InterruptRoundTrip :
    let s := running 0x30 [(5, 1), (6, 3)] []
    let t := s.takeInterrupt 0
    let u := ((t.setReg 0 9).setReg 5 0).emit (.num 1)
    s.mem.wf = true ∧ u.sp = t.sp ∧
    ∀ c ∈ [s.sp - 1, s.sp - 2, s.sp - 3, s.sp - 4, s.sp - 5, s.sp - 6, s.sp - 7, s.sp - 8, s.sp - 9],
      u.memRead c = t.memRead c := by decide
theorem witness_WritingIsRaisesInterrupt :
    let s := running 0 [(5, 2)] []
    (s.clock = .running ∧ s.ie = true ∧ s.nextInput = .tick ∧ 3#8 &&& s.reg IM ≠ 0) ∧
    ∃ t, exec (.ldi (regByte IS) 3) s = .next t := ⟨by decide, _, rfl⟩

/-! ## Laws that join instructions -/

/-- R7 as the pushed register, and a move from R3 to R4 (V-POP-5), with the state between as PUSH left it. -/
theorem witness_PushThenPop :
    (running 0 [] []).mem.wf = true ∧ (∃ t, exec (.push (regByte 7)) (running 0 [] []) = .next t ∧ t.memRead t.sp = 0xF3) ∧
    (∃ t, exec (.push (regByte 3)) (running 0 [(3, 0x2A)] []) = .next t ∧ t.sp = 0xF3) ∧ (3 : Reg) ≠ SP ∧ (4 : Reg) ≠ SP :=
  ⟨by decide, ⟨_, rfl, by decide⟩, ⟨_, rfl, by decide⟩, by decide, by decide⟩
theorem witness_CallThenRet :
    (running 6 [(1, 12)] []).mem.wf = true ∧
    ∃ t, exec (.call (regByte 1)) (running 6 [(1, 12)] []) = .next t ∧ t.sp = 0xF3 ∧ t.memRead t.sp = 8 :=
  ⟨by decide, _, rfl, by decide, by decide⟩
theorem witness_EqualityTakesTwoCmps :
    ∃ t u, exec (.cmp (regByte 0) (regByte 1)) (running 0 [(0, 1), (1, 3)] []) = .next t ∧
      exec (.cmp (regByte 1) (regByte 0)) t = .next u := ⟨_, _, rfl, rfl⟩
theorem witness_ConditionalJumpsAreOpposite :
    ∃ t u, exec (.jeq (regByte 1)) (State.reset.setEq .isFalse) = .next t ∧
      exec (.jne (regByte 1)) (State.reset.setEq .isFalse) = .next u ∧ (State.reset.setEq .isFalse).eq ≠ .unset ∧
      State.reset.eq = .unset := ⟨_, _, rfl, rfl, by decide, rfl⟩
/-- V-ST-3: the stored byte is the next instruction. -/
theorem witness_FetchSeesStore :
    let s := running 0x10 [(0, 0x13), (1, 0x01)] []
    (s.mem.wf = true ∧ s.clock = .running ∧ s.nextInput = .tick ∧ s.pendingLine = none ∧ s.reg 0 = s.pc + 3) ∧
    ∃ t, exec (.st (regByte 0) (regByte 1)) s = .next t := ⟨by decide, _, rfl⟩

/-! ## The environment, memory and the invariant -/

theorem witness_TimerSetsBitZero :
    ((running 0 [] []).setInputs [.timer]).nextInput = .timer ∧ ((running 0 [] []).setInputs [.timer]).clock = .running := by
  decide
/-- Each call while stopped, and while running and halted. -/
theorem witness_HostCallsFollowLifecycle :
    ((State.reset.setInputs [.poke 0xFF 1]).nextInput = .poke 0xFF 1 ∧ State.reset.clock = .stopped ∧
      State.reset.mem.wf = true) ∧
    ((State.reset.setInputs [.startClock]).nextInput = .startClock ∧ State.reset.clock = .stopped) ∧
    ((running 0 [] []).clock ≠ .stopped ∧ (State.reset.halt .hostStop).clock ≠ .stopped) := by decide
theorem witness_StopClockHalts :
    (State.reset.setInputs [.stopClock]).nextInput = .stopClock ∧ State.reset.clock ≠ .halted ∧
    (running 0 [] []).clock ≠ .halted ∧ (State.reset.halt (.hlt 0)).clock = .halted := by decide
/-- The third clause: a tick, and a timer event, due after the stop. -/
theorem witness_StopClockHalts_after :
    (∃ t, stepWith .published (State.reset.setInputs [.stopClock]) = .next t ∧ t.nextInput = .tick) ∧
    (∃ t, stepWith .published ((running 0 [] []).setInputs [.stopClock, .timer]) = .next t ∧ t.nextInput = .timer) :=
  ⟨⟨_, rfl, rfl⟩, ⟨_, rfl, rfl⟩⟩
/-- Two states with the same canonical memory, reached by writes in different orders. -/
theorem witness_MemoryReadsBackWrites :
    let s := (State.reset.memWrite 0 1).memWrite 0xFF 2
    let t := (State.reset.memWrite 0xFF 2).memWrite 0 1
    s.mem.wf = true ∧ t.mem.wf = true ∧ t.mem = s.mem := by decide
theorem witness_ConstructionMeetsInvariant : Memory.wf [(0, 1#8), (255, 255#8)] = true := by decide
/-- A machine that meets the invariant and steps: constructed, with a start scheduled. -/
theorem witness_StepKeepsInvariant :
    (State.reset.setInputs [.startClock]).Inv opcodeMap ∧
    ∃ t, step (State.reset.setInputs [.startClock]) = .next t :=
  ⟨⟨by decide, by decide, trivial, fun _ => ⟨spReset, rfl⟩⟩, _, rfl⟩

end Sys2Proof.Tests
end

section
/-! SUPPORT. Facts that the proofs about the machine's state share: the interrupt lines as bits, what a fetched instruction
says about the bytes it was decoded from, what an instruction does to registers, ie, eq, out and the clock, and the inversion
`stepWith_source` that sorts a step by who may have changed the state. -/

namespace Sys2Proof.Machine

/-! ## Interrupt lines -/

theorem State.pendingLine_eq_some_iff {s : State} {l : Line} :
    s.pendingLine = some l ↔ s.ie = true ∧ lowestSetBit (s.reg IS &&& s.reg IM) = some l := by
  unfold State.pendingLine
  cases s.ie <;> simp

/-- A line is taken only when its bit is set in IS and in IM (60_exceptions.md R205). -/
theorem State.pending_and_enabled {s : State} {l : Line} (h : s.pendingLine = some l) :
    (s.reg IS).getLsbD l.val = true ∧ (s.reg IM).getLsbD l.val = true := by
  have hbit := ((lowestSetBit_some_iff _ l).1 (State.pendingLine_eq_some_iff.1 h).2).1
  simpa using hbit

theorem State.pendingLine_of_ie_false {s : State} (h : s.ie = false) : s.pendingLine = none := by
  simp [State.pendingLine, h]

/-- A nonzero byte has a lowest set bit, and it is one of the byte's bits. -/
theorem exists_lowestSetBit {v : Byte} (h : v ≠ 0) : ∃ l, lowestSetBit v = some l ∧ v.getLsbD l.val = true := by
  cases hl : lowestSetBit v with
  | none => exact absurd ((lowestSetBit_none_iff v).1 hl) h
  | some l => exact ⟨l, rfl, ((lowestSetBit_some_iff v l).1 hl).1⟩

theorem clearBit_getLsbD (v : Byte) (l : Line) {k : Nat} (hk : k < 8) :
    (clearBit v l).getLsbD k = (v.getLsbD k && decide (k ≠ l.val)) := by
  by_cases hkl : k = l.val
  · simp [clearBit, hkl]
  · have hbit : (k < l.val) ∨ (k - l.val ≠ 0) := by omega
    rcases hbit with h | h <;> simp [clearBit, hk, hkl, h]

theorem State.raiseTimer_getLsbD (s : State) (k : Nat) :
    (s.raiseTimer.reg IS).getLsbD k = ((s.reg IS).getLsbD k || decide (k = 0)) := by
  simp [State.raiseTimer_eq, BitVec.getLsbD_one]

/-! ## Register operands -/

theorem regByte_injective : Function.Injective regByte := by decide

@[simp] theorem regByte_inj {r q : Reg} : regByte r = regByte q ↔ r = q := regByte_injective.eq_iff

/-- The literal 7 in the table of written registers stands for SP (10_state.md R22). -/
@[simp] theorem regByte_eq_seven {r : Reg} : regByte r = 7#8 ↔ r = SP := regByte_inj (q := SP)

/-- Where an operand's position stands in the list of operand bytes. -/
def Position.index : Position → Nat
  | .one => 0
  | .two => 1

/-- A register operand is the operand byte at its position. -/
theorem operandBytes_getElem?_index {i : Instr} {p : Position} {v : Byte} (h : (p, v) ∈ i.registerOperands) :
    i.operandBytes[Position.index p]? = some v := by
  cases i <;> simp [Instr.registerOperands] at h
  case add | mul | cmp | st => rcases h with ⟨rfl, rfl⟩ | ⟨rfl, rfl⟩ <;> rfl
  all_goals
    obtain ⟨rfl, rfl⟩ := h
    rfl

theorem firstBadOperand_mem {i : Instr} {p : Position} {v : Byte} (h : i.firstBadOperand = some (p, v)) :
    (p, v) ∈ i.registerOperands ∧ 7 < v.toNat := by
  refine ⟨List.mem_of_find?_eq_some h, registerByteOk_false.1 ?_⟩
  simpa using List.find?_some h

/-! ## The bytes a fetched instruction was decoded from -/

/-- A tick at `s` that fetches decodes the instruction `i` (40_engine.md R101, R103). -/
def Fetches (m : OpcodeMap) (s : State) (i : Instr) : Prop :=
  ∃ rest, decodeWith m [s.memRead s.pc, s.memRead (s.pc + 1), s.memRead (s.pc + 2)] = .ok (i, rest)

variable {m : OpcodeMap} {i : Instr} {s t : State}

/-- What the engine decodes in the state after the opcode fetch stood at pc before it. -/
theorem fetches_of_decode {rest : List Byte}
    (hd : decodeWith m s.afterInput.fetchOpcode.fetchedBytes = .ok (i, rest)) : Fetches m s i := ⟨rest, hd⟩

theorem Fetches.dispatch (h : Fetches m s i) : dispatch m (s.memRead s.pc) = some i.mnemonic := by
  obtain ⟨rest, hd⟩ := h
  obtain ⟨b, hb, hbs⟩ := decodeWith_ok hd
  rw [(List.cons.inj hbs).1]
  exact hb

theorem Fetches.operandBytes (h : Fetches m s i) :
    ∃ rest, [s.memRead (s.pc + 1), s.memRead (s.pc + 2)] = i.operandBytes ++ rest := by
  obtain ⟨rest, hd⟩ := h
  obtain ⟨b, -, hbs⟩ := decodeWith_ok hd
  exact ⟨rest, (List.cons.inj hbs).2⟩

/-- A register operand stands in memory as far from the opcode as its position says (30_encoding.md R71). -/
theorem Fetches.registerOperand (h : Fetches m s i) {p : Position} {v : Byte} (hv : (p, v) ∈ i.registerOperands) :
    s.memRead (s.pc + Position.offset p) = v := by
  obtain ⟨rest, hbs⟩ := h.operandBytes
  have hbyte : [s.memRead (s.pc + 1), s.memRead (s.pc + 2)][Position.index p]? = some v := by
    obtain ⟨hlt, hget⟩ := List.getElem?_eq_some_iff.1 (operandBytes_getElem?_index hv)
    rw [hbs, List.getElem?_append_left hlt, List.getElem?_eq_getElem hlt, hget]
  cases p <;> exact Option.some.inj hbyte

/-! ## What an instruction may change -/

/-- A conditional jump sets pc either way (44_control.md R166, R167). -/
@[simp] theorem State.branch_eq (c : Prop) [Decidable c] (s : State) (a : Byte) (n : Nat) :
    (if c then s.setPc a else s.advance n) = s.setPc (if c then a else s.pc + BitVec.ofNat 8 n) := by
  split <;> rfl

@[simp] theorem State.operandFault_eq (s : State) (p : Position) (v : Byte) :
    s.operandFault p v = s.halt (.operandFault s.pc s.ir p v) := rfl

/-- The column "writes" of 10_state.md R27: an unlisted register is unchanged. -/
theorem exec_reg_of_notMem {r : Reg} (h : exec i s = .next t) (hr : regByte r ∉ regsWritten i) : t.reg r = s.reg r := by
  cases exec_ran h <;> simp [regsWritten] at hr
  case iret => exact absurd hr (by revert r; decide)
  all_goals simp [State.push_reg, State.popReg_reg, State.popPc_reg, hr]

/-- A register other than SP has five writers (10_state.md R23, R24, R27). -/
theorem writer_of_mem_regsWritten {r : Reg} (hr : r ≠ SP) (h : regByte r ∈ regsWritten i) :
    i = .iret ∨ i = .pop (regByte r) ∨ ∃ c, i = .ldi (regByte r) c ∨ i = .add (regByte r) c ∨ i = .mul (regByte r) c := by
  cases i <;> simp_all [regsWritten]

theorem exec_ie (h : exec i s = .next t) (hi : i ≠ .iret) : t.ie = s.ie := by
  cases exec_ran h <;> simp at hi ⊢

/-- No instruction but IRET reads ie: a run with another ie differs in ie alone (10_state.md R33). -/
theorem Ran.setIe (h : Ran i s t) (hi : i ≠ .iret) (b : Bool) : Ran i (s.setIe b) (t.setIe b) := by
  cases h with
  | iret => exact absurd rfl hi
  | nop => exact .nop _
  | ldi a v => exact .ldi a v _
  | add a c => exact .add a c _
  | mul a c => exact .mul a c _
  | cmp a c => exact .cmp a c _
  | prn a => exact .prn a _
  | pra a => exact .pra a _
  | push a => exact .push a _
  | pop a => exact .pop a _
  | call a => exact .call a _
  | ret => exact .ret _
  | jmp a => exact .jmp a _
  | jeq a => rw [apply_ite (State.setIe · b)]; exact .jeq a _
  | jne a => rw [apply_ite (State.setIe · b)]; exact .jne a _
  | st a c => exact .st a c _
  | hlt => exact .hlt _
  | bad _ p v _ hbad => exact .bad i p v _ hbad

theorem subsetFlag_ne_unset (a b : Byte) : subsetFlag a b ≠ .unset := by
  unfold subsetFlag
  split <;> simp

/-- Only CMP writes eq, and it leaves no unset eq (10_state.md R35, R36). -/
theorem exec_eqFlag (h : exec i s = .next t) : t.eq = s.eq ∨ (i.mnemonic = .cmp ∧ t.eq ≠ .unset) := by
  cases exec_ran h
  case cmp a b => exact .inr ⟨rfl, subsetFlag_ne_unset _ _⟩
  all_goals simp

/-- Only PRN and PRA write out (10_state.md R40). -/
theorem exec_out (h : exec i s = .next t) :
    t.out = s.out ∨ ∃ r : Reg, (i = .prn (regByte r) ∧ t.out = s.out ++ [.num (s.reg r)]) ∨
      (i = .pra (regByte r) ∧ t.out = s.out ++ [.chr (s.reg r)]) := by
  cases exec_ran h
  case prn a => exact .inr ⟨a, .inl ⟨rfl, rfl⟩⟩
  case pra a => exact .inr ⟨a, .inr ⟨rfl, rfl⟩⟩
  all_goals simp

/-- An instruction lets the clock be, or it is an HLT or has a bad operand and halts (40_engine.md R107, R110). -/
theorem exec_runs_or_halts (h : exec i s = .next t) :
    (t.clock = s.clock ∧ t.haltReason = s.haltReason) ∨ (i = .hlt ∧ t = s.halt (.hlt s.pc)) ∨
      ∃ p v, i.firstBadOperand = some (p, v) ∧ t = s.operandFault p v := by
  cases exec_ran h
  case hlt => exact .inr (.inl ⟨rfl, rfl⟩)
  case bad p v hbad => exact .inr (.inr ⟨p, v, hbad, rfl⟩)
  all_goals simp

/-! ## Who may have changed the state -/

/-- The sources of a change by one step: an interrupt entry, an instruction, the timer, or one of the steps (a decode fault, a
call of the host) that leave registers, ie, eq and out alone. -/
inductive Source (m : OpcodeMap) (s t : State) : Prop where
  | entry (l : Line) (hi : s.nextInput = .tick) (hp : s.pendingLine = some l) (ht : t = s.afterInput.takeInterrupt l)
  | instr (i : Instr) (hi : s.nextInput = .tick) (hp : s.pendingLine = none) (hf : Fetches m s i)
      (hx : exec i s.afterInput.fetchOpcode = .next t)
  | timer (hi : s.nextInput = .timer) (ht : t = s.afterInput.raiseTimer)
  | other (hreg : ∀ r, t.reg r = s.reg r) (hie : t.ie = s.ie) (heq : t.eq = s.eq) (hout : t.out = s.out)

/-- Every step has one of these sources. -/
theorem stepWith_source (h : stepWith m s = .next t) : Source m s t := by
  cases stepWith_stepped h with
  | entry l hi _ hp => exact .entry l hi hp rfl
  | ran i rest _ hi _ hp hd hx => exact .instr i hi hp (fetches_of_decode hd) hx
  | timer hi _ => exact .timer hi rfl
  | decodeFault | poke | start | stop | stopHalted => exact .other (fun _ => rfl) rfl rfl rfl

/-- A step that changes a register enters an interrupt, runs an instruction that lists the register, or is a firing of the
timer, which writes IS. -/
theorem reg_change_source {r : Reg} (h : stepWith m s = .next t) (hr : t.reg r ≠ s.reg r) :
    (s.nextInput = .tick ∧ ∃ l, s.pendingLine = some l ∧ t = s.afterInput.takeInterrupt l) ∨
    (s.nextInput = .tick ∧ s.pendingLine = none ∧ ∃ i, Fetches m s i ∧ regByte r ∈ regsWritten i) ∨
    (s.nextInput = .timer ∧ t = s.afterInput.raiseTimer ∧ r = IS) := by
  cases stepWith_source h with
  | entry l hi hp ht => exact .inl ⟨hi, l, hp, ht⟩
  | instr i hi hp hf hx =>
    exact .inr (.inl ⟨hi, hp, i, hf, by_contra fun hn => hr (by simpa using exec_reg_of_notMem hx hn)⟩)
  | timer hi ht =>
    subst ht
    exact .inr (.inr ⟨hi, rfl, by_contra fun hn => hr (State.setReg_reg_ne _ hn _)⟩)
  | other hreg => exact absurd (hreg r) hr

/-! ## The tick, forwards -/

/-- A tick with a pending enabled line enters the interrupt (60_exceptions.md R205, R211). -/
theorem stepWith_of_pendingLine {l : Line} (hi : s.nextInput = .tick) (hc : s.clock = .running)
    (hp : s.pendingLine = some l) : stepWith m s = .next (s.afterInput.takeInterrupt l) := by
  have hc' : s.afterInput.clock = .running := hc
  simp only [stepWith, hi, act, whileRunning, hc', tick, pendingLine_afterInput, hp]

/-- A tick with no line to take fetches, if the clock runs (40_engine.md R100, R101). -/
theorem stepWith_of_no_pendingLine (hi : s.nextInput = .tick) (hp : s.pendingLine = none) :
    stepWith m s = whileRunning s.afterInput (fetchAndRun m s.afterInput) := by
  simp only [stepWith, hi, act, tick, pendingLine_afterInput, hp]

/-! ## The invariant -/

/-- A running machine with no reason recorded meets the invariant as soon as its memory is canonical. -/
theorem State.Inv.of_running (hm : t.mem.wf = true) (hc : t.clock = .running) (hr : t.haltReason = .none) : t.Inv m where
  memWf := hm
  haltedIff := by simp [hc, hr]
  report := by simp [ReportTrue, hr]
  unstarted h := by rw [hc] at h; cases h

/-- A halt with a true report meets the invariant as soon as memory is canonical. -/
theorem State.Inv.of_halt {r : HaltReason} (hm : s.mem.wf = true) (hr : r ≠ .none) (hrep : ReportTrue m (s.halt r)) :
    (s.halt r).Inv m where
  memWf := hm
  haltedIff := by simp [hr]
  report := hrep
  unstarted h := by cases h

theorem State.Inv.haltReason_eq_none (h : s.Inv m) (hc : s.clock ≠ .halted) : s.haltReason = .none :=
  by_contra fun hr => hc (h.haltedIff.2 hr)

/-- The invariant does not see the schedule move on. -/
theorem State.Inv.afterInput (h : s.Inv m) : s.afterInput.Inv m where
  memWf := h.memWf
  haltedIff := h.haltedIff
  report := h.report
  unstarted hc := by
    obtain ⟨sp, hs⟩ := h.unstarted hc
    exact ⟨sp, by rw [hs]; rfl⟩

/-- A poke before startClock changes memory alone, so the machine stays as constructed but for memory. -/
theorem State.Inv.memWrite_of_stopped (h : s.Inv m) (hc : s.clock = .stopped) (a v : Byte) : (s.memWrite a v).Inv m where
  memWf := State.memWrite_wf h.memWf a v
  haltedIff := h.haltedIff
  report := by simp [ReportTrue, h.haltReason_eq_none (by simp [hc])]
  unstarted _ := by
    obtain ⟨sp, hs⟩ := h.unstarted hc
    exact ⟨sp, by rw [hs]; rfl⟩

/-- The instruction of a tick keeps the invariant: it goes on running, or its halt report is true of the machine. -/
theorem State.Inv.exec_fetched (h : s.Inv m) (hc : s.clock = .running) (hf : Fetches m s i)
    (hx : exec i s.afterInput.fetchOpcode = .next t) : t.Inv m := by
  have hm : s.afterInput.fetchOpcode.mem.wf = true := h.memWf
  rcases exec_runs_or_halts hx with ⟨hclock, hreason⟩ | ⟨rfl, rfl⟩ | ⟨p, v, hbad, rfl⟩
  · exact .of_running (exec_wf hx hm) (hclock.trans hc) (hreason.trans (h.haltReason_eq_none (by simp [hc])))
  · exact .of_halt hm (by simp) ⟨rfl, rfl, hf.dispatch⟩
  · obtain ⟨hv, hgt⟩ := firstBadOperand_mem hbad
    exact .of_halt hm (by simp) ⟨rfl, rfl, rfl, hf.registerOperand hv, hgt⟩

/-- Every step keeps the invariant. -/
theorem State.Inv.stepWith (h : s.Inv m) (hs : stepWith m s = .next t) : t.Inv m := by
  have hm : s.afterInput.mem.wf = true := h.memWf
  cases stepWith_stepped hs with
  | entry l _ hc _ =>
    exact .of_running (State.takeInterrupt_wf hm l) (by simpa using hc)
      (by simpa using h.haltReason_eq_none (by simp [hc]))
  | ran i rest _ _ hc _ hd hx => exact h.exec_fetched hc (fetches_of_decode hd) hx
  | decodeFault _ _ _ hd => exact .of_halt h.memWf (by simp) ⟨rfl, rfl, rfl, hd⟩
  | timer _ hc => exact .of_running hm hc (h.haltReason_eq_none (by simp [hc]))
  | poke a v _ hc => exact h.afterInput.memWrite_of_stopped hc a v
  | start _ hc => exact .of_running hm rfl (h.haltReason_eq_none (by simp [hc]))
  | stop => exact .of_halt hm (by simp) trivial
  | stopHalted => exact h.afterInput

end Sys2Proof.Machine
end

section
/-! PROOFS. The statements of 10_state.md about single pieces of state: registers, IM, IS, ie, eq, out, ir, and the machine's
invariant. -/

namespace Sys2Proof.Machine

/-- Settles O58: the invariant, one case per thing a step can do. -/
theorem stepKeepsInvariant : Obligations.StepKeepsInvariant :=
  ⟨fun _ _ _ hinv hs => hinv.stepWith hs, fun _ _ hinv hs => hinv.stepWith hs⟩

/-- Settles O32, from the registers each instruction writes and those the entry writes. -/
theorem registersWrittenOnlyAsListed : Obligations.RegistersWrittenOnlyAsListed := by
  refine ⟨fun i s t h r hr => exec_reg_of_notMem h hr, fun s l r hr => ?_⟩
  obtain ⟨h6, h7⟩ : r ≠ IS ∧ r ≠ SP := by simpa [IS, SP] using hr
  simp [State.takeInterrupt_reg, h6, h7]

/-- Settles O35, from the sources of a register change: for IM only an instruction is left. -/
theorem imWrittenOnlyByInstructions : Obligations.ImWrittenOnlyByInstructions := by
  have him : IM ≠ SP ∧ IM ≠ IS := by decide
  have hentry : ∀ (s : State) (l : Line), (s.takeInterrupt l).reg IM = s.reg IM := fun s l => by
    simp [State.takeInterrupt_reg, him]
  refine ⟨fun s l hp => (State.pending_and_enabled hp).2, fun m s t h hne => ?_, hentry⟩
  rcases reg_change_source h hne with ⟨-, l, -, rfl⟩ | ⟨hi, hp, i, ⟨rest, hd⟩, hw⟩ | ⟨-, -, his⟩
  · exact absurd (hentry s.afterInput l) hne
  · exact ⟨hi, hp, i, rest, hd, writer_of_mem_regsWritten him.1 hw⟩
  · exact absurd his him.2

/-- Settles O36: the three sources of a register change are the three writers of IS. -/
theorem isHasThreeWriters : Obligations.IsHasThreeWriters := by
  refine ⟨fun s l hp => (State.pending_and_enabled hp).1, fun m s t h hne => ?_⟩
  rcases reg_change_source h hne with ⟨hi, l, hp, rfl⟩ | ⟨hi, hp, i, ⟨rest, hd⟩, hw⟩ | ⟨hi, rfl, -⟩
  · refine .inr (.inl ⟨hi, l, hp, fun k hk => ?_⟩)
    simp only [State.takeInterrupt_reg, is_ne_sp, if_false, if_true]
    exact clearBit_getLsbD _ l hk
  · exact .inl ⟨hi, hp, i, rest, hd, writer_of_mem_regsWritten is_ne_sp hw⟩
  · exact .inr (.inr ⟨hi, fun k _ => s.afterInput.raiseTimer_getLsbD k⟩)

/-- Settles O37: only the entry and IRET write ie, and only the interrupt check reads it. -/
theorem ieGatesInterrupts : Obligations.IeGatesInterrupts := by
  refine ⟨rfl, State.takeInterrupt_ie, fun s t h => ?_, fun i s t b hi h => ?_, fun s => State.pendingLine_of_ie_false,
    fun m s t h hne => ?_⟩
  · rw [← Host.Outcome.next.inj h]
    exact s.returnFromInterrupt_ie
  · exact ⟨exec_ie h hi, exec_eq_of_ran ((exec_ran h).setIe hi b)⟩
  · cases stepWith_source h with
    | entry l hi hp _ => exact ⟨hi, .inl ⟨l, hp⟩⟩
    | instr i hi hp hf hx =>
      obtain rfl : i = .iret := by_contra fun hn => hne (by simpa using exec_ie hx hn)
      exact ⟨hi, .inr hf.dispatch⟩
    | timer _ ht => exact absurd (ht ▸ rfl) hne
    | other _ hie => exact absurd hie hne

/-- Settles O38: of the sources of a step only an instruction changes eq, and it is CMP. -/
theorem eqWrittenOnlyByCmp : Obligations.EqWrittenOnlyByCmp := by
  intro m s t h hne
  cases stepWith_source h with
  | entry l _ _ ht => exact absurd (ht ▸ State.takeInterrupt_eqFlag _ l) hne
  | instr i hi hp hf hx =>
    obtain ⟨hcmp, hset⟩ := (exec_eqFlag hx).resolve_left hne
    exact ⟨hi, hp, hcmp ▸ hf.dispatch, hset⟩
  | timer _ ht => exact absurd (ht ▸ rfl) hne
  | other _ _ heq => exact absurd heq hne

/-- Settles O39: of the sources of a step only an instruction changes out, and it is PRN or PRA of the operand's register. -/
theorem outGrowsOnlyByPrnAndPra : Obligations.OutGrowsOnlyByPrnAndPra := by
  refine ⟨rfl, fun m s t h => ?_⟩
  cases stepWith_source h with
  | entry l _ _ ht => exact .inl (ht ▸ State.takeInterrupt_out _ l)
  | instr i hi hp hf hx =>
    refine (exec_out hx).imp_right ?_
    rintro ⟨r, ⟨rfl, hout⟩ | ⟨rfl, hout⟩⟩
    · exact ⟨hi, hp, r, hf.registerOperand (.head _), .inl ⟨hf.dispatch, hout⟩⟩
    · exact ⟨hi, hp, r, hf.registerOperand (.head _), .inr ⟨hf.dispatch, hout⟩⟩
  | timer _ ht => exact .inl (ht ▸ rfl)
  | other _ _ _ hout => exact .inl hout

/-- Settles O46: after the LDI the lowest enabled bit of the written value is the pending line. -/
theorem writingIsRaisesInterrupt : Obligations.WritingIsRaisesInterrupt := by
  intro m s t v hc hie hi hv h
  obtain rfl : (s.setReg IS v).advance 3 = t := Host.Outcome.next.inj ((exec_eq_of_ran (.ldi IS v s)).symm.trans h)
  obtain ⟨l, hl, hbit⟩ := exists_lowestSetBit hv
  have him : IM ≠ IS := by decide
  have hp : ((s.setReg IS v).advance 3).pendingLine = some l :=
    State.pendingLine_eq_some_iff.2 ⟨hie, by simpa [him] using hl⟩
  have hlv : v.getLsbD l.val = true := by
    rw [BitVec.getLsbD_and, Bool.and_eq_true] at hbit
    exact hbit.1
  exact ⟨l, hlv, stepWith_of_pendingLine hi hc hp⟩

/-- Settles O14: the fetch overwrites ir, so both ticks run from the same state. -/
theorem irIsNotObservable : Obligations.IrIsNotObservable := by
  intro m s x hi hp
  have hx : (s.setIr x).afterInput.fetchOpcode = s.afterInput.fetchOpcode := rfl
  have hfetch : fetchAndRun m (s.setIr x).afterInput = fetchAndRun m s.afterInput := by
    simp only [fetchAndRun, hx]
  calc stepWith m (s.setIr x)
      = whileRunning (s.setIr x).afterInput (fetchAndRun m (s.setIr x).afterInput) := stepWith_of_no_pendingLine hi hp
    _ = whileRunning s.afterInput (fetchAndRun m s.afterInput) := by rw [hfetch]; rfl
    _ = stepWith m s := (stepWith_of_no_pendingLine hi hp).symm

end Sys2Proof.Machine
end

section
/-! SUPPORT. Facts that the proofs about memory share: a canonical memory is its 256 readings, the decoder reads an encoded
instruction back from the three fetched bytes, and what a fetching tick leaves in ir. -/

namespace Sys2Proof

/-- Decoding an encoded instruction gives it back and leaves the bytes after it (30_encoding.md R78). -/
theorem decodeWith_encodeWith {m : OpcodeMap} (hm : m.Valid) (i : Instr) (rest : List Byte) :
    decodeWith m (encodeWith m i ++ rest) = .ok (i, rest) := by
  simp [encodeWith, decodeWith, dispatch_byteOf hm, decodeOperands_operandBytes]

/-- No format is wider than three bytes (30_encoding.md R71). -/
theorem encodeWith_length_le (m : OpcodeMap) (i : Instr) : (encodeWith m i).length ≤ 3 := by
  cases i <;> simp [encodeWith, Instr.operandBytes]

end Sys2Proof

namespace Sys2Proof.Machine

variable {m : OpcodeMap} {i : Instr} {s t : State}

/-- Canonical memories with the same 256 readings are the same memory: beyond the addresses both read as unlisted. -/
theorem State.mem_ext (hs : s.mem.wf = true) (ht : t.mem.wf = true) (h : ∀ a, t.memRead a = s.memRead a) :
    t.mem = s.mem := by
  refine Memory.ext_of_read ht hs fun a => ?_
  by_cases ha : a < 256
  · have hread := h (BitVec.ofNat 8 a)
    rwa [State.memRead, State.memRead, BitVec.toNat_ofNat, Nat.mod_eq_of_lt ha] at hread
  · have hle : memSize ≤ a := Nat.le_of_not_lt ha
    rw [Memory.read_of_memSize_le ht hle, Memory.read_of_memSize_le hs hle]

/-- An instruction stores to no address but its store address (20_memory.md R51). -/
theorem exec_memRead_of_ne {c : Byte} (h : exec i s = .next t) (hc : storeAddress i s ≠ some c) :
    t.memRead c = s.memRead c := by
  cases exec_ran h
  case push a => exact State.push_memRead_ne s (·.reg a) fun e => hc (congrArg some e.symm)
  case call a => exact State.push_memRead_ne s (·.pc + 2) fun e => hc (congrArg some e.symm)
  case st a b =>
    have hne : c ≠ s.reg a := by
      rintro rfl
      exact hc (by simp [storeAddress])
    exact State.memWrite_memRead_ne s hne _
  all_goals simp

/-- An instruction whose encoding stands at pc byte by byte, modulo 256, is the one a tick fetches, under every map that
meets R76: the three fetched bytes begin with the encoding, and the decoder reads it back (20_memory.md R57, R58). -/
theorem fetches_of_encodeWith (hm : m.Valid)
    (h : ∀ (k : Nat) (hk : k < (encodeWith m i).length), s.memRead (s.pc + BitVec.ofNat 8 k) = (encodeWith m i)[k]) :
    Fetches m s i := by
  have hlen := encodeWith_length_le m i
  have htake : [s.memRead s.pc, s.memRead (s.pc + 1), s.memRead (s.pc + 2)].take (encodeWith m i).length =
      encodeWith m i := by
    refine List.ext_getElem (by simpa using hlen) fun k _ hk => ?_
    rw [List.getElem_take, ← h k hk]
    have hk3 : k < 3 := Nat.lt_of_lt_of_le hk hlen
    interval_cases k <;> simp
  rw [Fetches, ← List.take_append_drop (encodeWith m i).length [_, _, _], htake]
  exact ⟨_, decodeWith_encodeWith hm i _⟩

/-- A fetched instruction's opcode byte stands at pc. -/
theorem Fetches.opcode (h : Fetches m s i) : s.memRead s.pc = m.byteOf i.mnemonic := (byteOf_of_dispatch h.dispatch).symm

/-- A tick that fetches always has a next state, with the byte at pc in ir (10_state.md R31; 40_engine.md R101). -/
theorem fetchAndRun_ir (m : OpcodeMap) (s : State) :
    ∃ t, fetchAndRun m s = .next t ∧ t.ir = s.memRead s.pc := by
  simp only [fetchAndRun]
  split
  · next i _ _ =>
    obtain ⟨t, ht⟩ := exec_next i s.fetchOpcode
    exact ⟨t, ht, exec_ir ht⟩
  · exact ⟨_, rfl, rfl⟩

/-- The step of a running machine with a tick due and no line to take leaves in ir the byte that stood at pc. -/
theorem stepWith_ir_of_fetch (m : OpcodeMap) (hi : s.nextInput = .tick) (hc : s.clock = .running)
    (hp : s.pendingLine = none) : ∃ t, stepWith m s = .next t ∧ t.ir = s.memRead s.pc := by
  have hstep : stepWith m s = fetchAndRun m s.afterInput := by
    simp [stepWith_of_no_pendingLine hi hp, whileRunning, hc]
  rw [hstep]
  exact fetchAndRun_ir m s.afterInput

end Sys2Proof.Machine
end

section
/-! PROOFS. The statements of 20_memory.md: reading and writing memory, what an instruction stores, and the bytes a step
fetches. -/

namespace Sys2Proof.Machine

/-- Settles O55, from the two laws of memory: read after write, and extensionality of the canonical form. -/
theorem memoryReadsBackWrites : Obligations.MemoryReadsBackWrites :=
  ⟨fun _ a v c hm => State.memWrite_memRead hm a v c,
    fun _ _ hs ht h => State.mem_ext hs ht fun a => h a List.not_mem_nil⟩

/-- Settles O33, from the store address of each instruction. -/
theorem memoryWrittenOnlyWhereListed : Obligations.MemoryWrittenOnlyWhereListed :=
  fun _ _ _ h _ hc => exec_memRead_of_ne h hc

/-- Settles O8: the three fetched bytes begin with the encoding, so the decoder reads it back. -/
theorem stepRunsEncodedBytes : Obligations.StepRunsEncodedBytes := by
  intro m hm s i hi hc hp hbytes
  have hf : Fetches m s i := fetches_of_encodeWith hm hbytes
  rw [← hf.opcode]
  obtain ⟨rest, hd⟩ := hf
  exact stepWith_of_decode hi hc hp hd

/-- Settles O51: after the ST pc is the address stored to, and what decides that the next step fetches is as before it. -/
theorem fetchSeesStore : Obligations.FetchSeesStore := by
  intro m a b s t hm hc hi hp ha h
  obtain rfl : (s.memWrite (s.reg a) (s.reg b)).advance 3 = t :=
    Host.Outcome.next.inj ((exec_eq_of_ran (.st a b s)).symm.trans h)
  obtain ⟨u, hu, hir⟩ := stepWith_ir_of_fetch m (s := (s.memWrite (s.reg a) (s.reg b)).advance 3) hi hc hp
  refine ⟨u, hu, ?_⟩
  calc u.ir = (s.memWrite (s.reg a) (s.reg b)).memRead (s.pc + 3) := hir
    _ = s.reg b := by rw [← ha, State.memWrite_memRead_self hm]

end Sys2Proof.Machine
end

section
/-! SUPPORT. Facts that the proofs about the encoding share: both listed tables are valid, how many operand bytes a mnemonic
takes, and how many bytes have no handler. -/

namespace Sys2Proof

theorem OpcodeMap.published_valid : OpcodeMap.published.Valid := by decide

theorem OpcodeMap.earlierEdition_valid : OpcodeMap.earlierEdition.Valid := by decide

/-- Given two bytes, a mnemonic's operands are as many of them as its width says, in order (30_encoding.md R71, R80). -/
theorem exists_decodeOperands_pair (x : Mnemonic) (c d : Byte) :
    ∃ i : Instr, decodeOperands x [c, d] = .ok (i, [c, d].drop (x.width - 1)) ∧ i.mnemonic = x ∧
      i.operandBytes = [c, d].take (x.width - 1) := by
  cases x <;> exact ⟨_, rfl, rfl, rfl⟩

theorem decodeWith_cons_byteOf {m : OpcodeMap} (hm : m.Valid) (x : Mnemonic) (bs : List Byte) :
    decodeWith m (m.byteOf x :: bs) = decodeOperands x bs := by
  simp [decodeWith, dispatch_byteOf hm]

theorem dispatch_eq_none_of_byteOf_ne {m : OpcodeMap} {b : Byte} (h : ∀ x : Mnemonic, m.byteOf x ≠ b) :
    dispatch m b = none := by
  simp [dispatch, h]

theorem dispatch_isNone (m : OpcodeMap) (b : Byte) : (dispatch m b).isNone = !decide (b ∈ m.bytes) := by
  rw [Bool.eq_iff_iff]
  simp [dispatch_none_iff]

/-- Every byte, in rising order. -/
def allBytes : List Byte := (List.range 256).map (BitVec.ofNat 8)

theorem allBytes_nodup : allBytes.Nodup := by
  refine List.Nodup.map_on (fun a ha b hb h => ?_) List.nodup_range
  have hnat := congrArg BitVec.toNat h
  rw [List.mem_range] at ha hb
  rwa [BitVec.toNat_ofNat, BitVec.toNat_ofNat, Nat.mod_eq_of_lt ha, Nat.mod_eq_of_lt hb] at hnat

theorem mem_allBytes (b : Byte) : b ∈ allBytes :=
  List.mem_map.2 ⟨b.toNat, List.mem_range.2 b.isLt, by simp⟩

/-- The 256 bytes split into the members of the list, each met once, and the rest. -/
theorem length_filter_notMem_allBytes {bs : List Byte} (h : bs.Nodup) :
    (allBytes.filter fun b => !decide (b ∈ bs)).length = 256 - bs.length := by
  have hperm : (allBytes.filter (· ∈ bs)).Perm bs :=
    (List.perm_ext_iff_of_nodup (allBytes_nodup.filter _) h).2 fun b => by simp [mem_allBytes]
  have hsplit := List.length_eq_length_filter_add (l := allBytes) (· ∈ bs)
  have hall : allBytes.length = 256 := by simp [allBytes]
  have hbs := hperm.length_eq
  omega

/-- The opcode bytes with no handler are the 256 bytes without the 17 assigned ones (30_encoding.md R79). -/
theorem length_filter_dispatch_isNone {m : OpcodeMap} (hm : m.Valid) :
    ((List.range 256).filter fun n => (dispatch m (BitVec.ofNat 8 n)).isNone).length = 239 := by
  have h := length_filter_notMem_allBytes hm.1
  simp only [← dispatch_isNone] at h
  rwa [allBytes, List.filter_map, List.length_map] at h

end Sys2Proof
end

section
/-! PROOFS. The statements of 30_encoding.md: the decoder and the encoder are inverse to each other, the opcode byte decides
the instruction, and which bytes have no handler. -/

namespace Sys2Proof

/-- Settles O1, from the round trip under a valid map; the model's own map is the published table, which is valid. -/
theorem decodeInvertsEncode : Obligations.DecodeInvertsEncode := by
  refine ⟨fun m hm i rest => decodeWith_encodeWith hm i rest, fun i _ => ?_⟩
  have h := decodeWith_encodeWith OpcodeMap.published_valid i []
  rwa [List.append_nil] at h

/-- Settles O2: the opcode byte read is the one its mnemonic is assigned, and the operand bytes follow it. -/
theorem encodeInvertsDecode : Obligations.EncodeInvertsDecode := by
  intro m bs rest i h
  obtain ⟨b, hb, rfl⟩ := decodeWith_ok h
  simp [encodeWith, byteOf_of_dispatch hb]

/-- Settles O3: an assigned byte sends the decoder to its mnemonic's operands, any other byte has no handler. -/
theorem opcodeByteDecides : Obligations.OpcodeByteDecides := by
  intro m hm b c d
  constructor
  · rintro x rfl
    rw [decodeWith_cons_byteOf hm]
    exact exists_decodeOperands_pair x c d
  · intro h
    exact decodeWith_of_dispatch_none (dispatch_eq_none_of_byteOf_ne h) [c, d]

/-- Settles O4, by counting the bytes that are not assigned. -/
theorem illegalOpcodeCount : Obligations.IllegalOpcodeCount :=
  fun m hm => ⟨length_filter_dispatch_isNone hm, (dispatch_none_iff m _).2 hm.2⟩

/-- Settles O5: each word is the encoding of its instruction under the published table, but 0xFF, which has no handler. -/
theorem publishedWordsDecode : Obligations.PublishedWordsDecode :=
  have decodes (i : Instr) : decodeWith .published (encodeWith .published i ++ []) = .ok (i, []) :=
    decodeWith_encodeWith OpcodeMap.published_valid i []
  have hff : dispatch .published 0xFF = none := (dispatch_none_iff _ _).2 OpcodeMap.published_valid.2
  ⟨OpcodeMap.published_valid, OpcodeMap.earlierEdition_valid, decodes (.ldi 2 200), decodes (.cmp 0 1), decodes (.prn 6),
    decodes (.st 2 3), decodes (.call 1), decodes .iret, decodeWith_of_dispatch_none hff []⟩

end Sys2Proof
end

section
/-! SUPPORT. Facts that the proofs about the engine share: which bytes each instruction checks, the fault of
the first bad operand, and which actions need a running clock. -/

namespace Sys2Proof.Machine

variable {i : Instr} {s : State}

/-! ## The operand check -/

/-- The first bad operand raises OperandFault, whatever the instruction does on legal operands (40_engine.md R104). -/
theorem exec_of_firstBadOperand {p : Position} {v : Byte} (h : i.firstBadOperand = some (p, v)) (s : State) :
    exec i s = .next (s.operandFault p v) :=
  exec_eq_of_ran (.bad i p v s h)

/-- The instructions whose only register operand is at position 1: those of format R, and LDI. -/
theorem registerOperands_of_mem_one {imm : Byte} {f : Byte → Instr}
    (hf : f ∈ [Instr.prn, Instr.pra, Instr.push, Instr.pop, Instr.call, Instr.jmp, Instr.jeq, Instr.jne, (Instr.ldi · imm)])
    (a : Byte) : (f a).registerOperands = [(.one, a)] := by
  revert f
  simp [Instr.registerOperands]

/-- The instructions of format RR check both operands, position 1 first. -/
theorem registerOperands_of_mem_two {f : Byte → Byte → Instr} (hf : f ∈ [Instr.add, Instr.mul, Instr.cmp, Instr.st])
    (a b : Byte) : (f a b).registerOperands = [(.one, a), (.two, b)] := by
  revert f
  simp [Instr.registerOperands]

/-- An operand byte up to 7 names a register. -/
theorem exists_regByte_of_le {b : Byte} (h : b.toNat ≤ 7) : ∃ r : Reg, b = regByte r :=
  (regByte_or_bad b).resolve_right (Nat.not_lt.2 h)

/-! ## The running clock -/

theorem whileRunning_of_stopped (h : s.clock = .stopped) (k : Result) : whileRunning s k = .fault .clockStopped := by
  simp [whileRunning, h]

theorem whileRunning_of_halted (h : s.clock = .halted) (k : Result) : whileRunning s k = .fault .clockHalted := by
  simp [whileRunning, h]

/-- A tick and a timer event are actions that only a running machine can do (40_engine.md R100; 60_exceptions.md R215). -/
theorem exists_stepWith_eq_whileRunning (m : OpcodeMap) (h : s.nextInput = .tick ∨ s.nextInput = .timer) :
    ∃ k, stepWith m s = whileRunning s.afterInput k := by
  rcases h with hi | hi
  · exact ⟨tick m s.afterInput, by rw [stepWith, hi, act]⟩
  · exact ⟨.next s.afterInput.raiseTimer, by rw [stepWith, hi, act, envTimer]⟩

end Sys2Proof.Machine
end

section
/-! PROOFS. The statements of 40_engine.md: what a tick runs, the operand check and the pc advance, and how a run goes on and
ends. -/

namespace Sys2Proof.Machine

/-- Settles O6: in each instruction the byte is the first bad operand, position 1 before position 2. -/
theorem firstBadOperandFaults : Obligations.FirstBadOperandFaults := by
  refine ⟨fun imm f hf a s ha => ?_, fun f hf a b s => ⟨fun ha => ?_, fun ha hb => ?_⟩, fun _ _ _ _ => rfl⟩
  · exact exec_of_firstBadOperand (bad_one (registerOperands_of_mem_one hf a) ha) s
  · exact exec_of_firstBadOperand (bad_one (registerOperands_of_mem_two hf a b) ha) s
  · obtain ⟨r, rfl⟩ := exists_regByte_of_le ha
    exact exec_of_firstBadOperand (bad_two (registerOperands_of_mem_two hf _ b) hb) s

/-- Settles O10: of the things a step can do only a stopClock can happen on a halted clock. -/
theorem haltedIsFinal : Obligations.HaltedIsFinal := by
  intro m s t hh h
  cases stepWith_stepped h with
  | stopHalted hi _ => exact ⟨hi, rfl⟩
  | stop _ hc => exact absurd hh hc
  | entry _ _ hc | ran _ _ _ _ hc | decodeFault _ hc | timer _ hc | poke _ _ _ hc | start _ hc =>
    rw [hh] at hc
    cases hc

/-- Settles O11, one case per thing a step can do; an instruction halts only as an HLT or for its first bad operand. -/
theorem runEndsOnlyAsListed : Obligations.RunEndsOnlyAsListed := by
  intro m s t hrun h
  cases stepWith_stepped h with
  | entry => exact .inl (by simp [hrun])
  | timer => exact .inl ⟨hrun, rfl⟩
  | decodeFault hi _ _ hd => exact .inr ⟨rfl, .inr (.inl ⟨rfl, hi, hd⟩)⟩
  | stop hi => exact .inr ⟨rfl, .inr (.inr (.inr ⟨rfl, hi⟩))⟩
  | ran i rest _ hi _ _ hd hx =>
    have hf : Fetches m s i := fetches_of_decode hd
    rcases exec_runs_or_halts hx with ⟨hclock, hreason⟩ | ⟨rfl, rfl⟩ | ⟨p, v, hbad, rfl⟩
    · exact .inl ⟨hclock.trans hrun, hreason⟩
    · exact .inr ⟨rfl, .inl ⟨rfl, hi, hf.dispatch⟩⟩
    · obtain ⟨hv, hgt⟩ := firstBadOperand_mem hbad
      exact .inr ⟨rfl, .inr (.inr (.inl ⟨p, v, rfl, hi, hgt, (hf.registerOperand hv).symm⟩))⟩
  | poke _ _ _ hc | start _ hc | stopHalted _ hc =>
    rw [hrun] at hc
    cases hc

/-- Settles O12: a pending enabled line is entered, and a tick that fetches has a next state. -/
theorem everyTickCompletes : Obligations.EveryTickCompletes := by
  intro m s hi hc
  cases hp : s.pendingLine with
  | some l => exact ⟨_, stepWith_of_pendingLine hi hc hp⟩
  | none =>
    obtain ⟨t, ht, -⟩ := stepWith_ir_of_fetch m hi hc hp
    exact ⟨t, ht⟩

/-- Settles O34, one case per result of an instruction; a well-formed instruction has no bad operand. -/
theorem pcAdvancesByWidth : Obligations.PcAdvancesByWidth := by
  intro i s t hw hi h
  cases exec_ran h with
  | nop | ldi | add | mul | cmp | prn | pra | push | pop | st =>
    simp [Instr.mnemonic, Mnemonic.width, Mnemonic.format, Format.width]
  | call | ret | jmp | jeq | jne | iret | hlt => simp [Instr.mnemonic] at hi
  | bad _ p v _ hbad => simp [(firstBadOperand_none_iff i).2 hw] at hbad

/-- Settles O7: the bytes at pc are what the engine decodes after the fetch. -/
theorem stepRunsDecodedInstruction : Obligations.StepRunsDecodedInstruction :=
  ⟨fun _ _ _ _ hi hc hp hd => stepWith_of_decode hi hc hp hd, step_eq⟩

/-- Settles O9: a tick and a timer event need a running clock, and taking them off the schedule leaves the clock alone. -/
theorem noStepUnlessRunning : Obligations.NoStepUnlessRunning := by
  intro m s hi
  obtain ⟨k, hk⟩ := exists_stepWith_eq_whileRunning m hi
  rw [hk]
  exact ⟨fun hc => whileRunning_of_stopped hc k, fun hc => whileRunning_of_halted hc k⟩

end Sys2Proof.Machine
end

section
/-! SUPPORT. Facts that the proofs about LDI, ADD, MUL and CMP share: the ALU as arithmetic modulo 256, CMP's flag as a
statement about bits, and what writing one register and advancing pc leaves unchanged. -/

namespace Sys2Proof.Machine

/-! ## The ALU -/

theorem aluAdd_toNat (a b : Byte) : (aluAdd a b).toNat = (a.toNat + b.toNat) % 256 := BitVec.toNat_ofNat _ 8

theorem aluMul_toNat (a b : Byte) : (aluMul a b).toNat = (a.toNat * b.toNat) % 256 := BitVec.toNat_ofNat _ 8

theorem aluMul_eq_mul (a b : Byte) : aluMul a b = a * b :=
  BitVec.eq_of_toNat_eq ((aluMul_toNat a b).trans (BitVec.toNat_mul a b).symm)

/-- The low byte does not tell a signed product from an unsigned one (41_alu_data.md R122). -/
theorem aluMul_eq_ofInt (a b : Byte) : aluMul a b = BitVec.ofInt 8 (a.toInt * b.toInt) := by
  rw [aluMul_eq_mul, BitVec.ofInt_mul, BitVec.ofInt_toInt, BitVec.ofInt_toInt]

/-! ## CMP's flag -/

/-- The mask a & ~b is zero exactly when no bit is set in a and not in b. -/
theorem and_not_eq_zero_iff (a b : Byte) :
    a &&& ~~~b = 0 ↔ ∀ k < 8, a.getLsbD k = true → b.getLsbD k = true := by
  have hbit : ∀ k < 8, (a &&& ~~~b).getLsbD k = (a.getLsbD k && !b.getLsbD k) := fun k hk => by simp [hk]
  constructor
  · intro h k hk ha
    have hk0 := hbit k hk
    rw [h] at hk0
    simpa [ha] using hk0
  · intro h
    refine BitVec.eq_of_getLsbD_eq fun k hk => ?_
    rw [hbit k hk]
    simpa using h k hk

theorem subsetFlag_eq_isTrue_iff (a b : Byte) :
    subsetFlag a b = .isTrue ↔ ∀ k < 8, a.getLsbD k = true → b.getLsbD k = true := by
  rw [← and_not_eq_zero_iff, subsetFlag, ite_eq_left_iff]
  simp only [reduceCtorEq, imp_false, not_not]

theorem subsetFlag_eq_isFalse_iff (a b : Byte) :
    subsetFlag a b = .isFalse ↔ ∃ k < 8, a.getLsbD k = true ∧ b.getLsbD k = false := by
  have hne : subsetFlag a b = .isFalse ↔ subsetFlag a b ≠ .isTrue := by
    unfold subsetFlag
    split <;> simp
  rw [hne, ne_eq, subsetFlag_eq_isTrue_iff]
  simp

/-- Bytes that are subsets of each other are equal (41_alu_data.md R126). -/
theorem subsetFlag_both_isTrue_iff (a b : Byte) :
    (subsetFlag a b = .isTrue ∧ subsetFlag b a = .isTrue) ↔ a = b := by
  rw [subsetFlag_eq_isTrue_iff, subsetFlag_eq_isTrue_iff]
  constructor
  · rintro ⟨hab, hba⟩
    exact BitVec.eq_of_getLsbD_eq fun k hk => Bool.eq_iff_iff.2 ⟨hab k hk, hba k hk⟩
  · rintro rfl
    exact ⟨fun _ _ h => h, fun _ _ h => h⟩

/-! ## The frame -/

/-- LDI, ADD and MUL write one register and advance pc: nothing else changes. -/
theorem State.setReg_advance_frame (s : State) (a : Reg) (v : Byte) (n : Nat) :
    SameRegsExcept [a] s ((s.setReg a v).advance n) ∧ SameMemExcept [] s ((s.setReg a v).advance n) ∧
      SameBesideData s ((s.setReg a v).advance n) := by
  refine ⟨fun r hr => ?_, fun _ _ => rfl, ⟨⟨rfl, rfl, rfl, rfl, rfl⟩, rfl, rfl⟩⟩
  simp [List.ne_of_not_mem_cons hr]

end Sys2Proof.Machine
end

section
/-! PROOFS. The statements of 41_alu_data.md: what LDI, ADD and MUL load into their register, and CMP's subset test. -/

namespace Sys2Proof.Machine

/-- Settles O19: CMP sets eq to the flag, which is true or false by the bits, and advances pc. -/
theorem cmpIsSubsetTest : Obligations.CmpIsSubsetTest := fun a b s =>
  ⟨_, exec_eq_of_ran (.cmp a b s), (subsetFlag_eq_isTrue_iff _ _).2, (subsetFlag_eq_isFalse_iff _ _).2, rfl, rfl,
    fun _ _ => rfl, fun _ _ => rfl, ⟨rfl, rfl, rfl, rfl, rfl⟩⟩

/-- Settles O49: the first CMP writes no register, so the two flags are about the same two bytes, once each way. -/
theorem equalityTakesTwoCmps : Obligations.EqualityTakesTwoCmps := by
  intro a b s t u hab hba
  obtain rfl := Host.Outcome.next.inj ((exec_eq_of_ran (.cmp a b s)).symm.trans hab)
  obtain rfl := Host.Outcome.next.inj ((exec_eq_of_ran (.cmp b a _)).symm.trans hba)
  exact subsetFlag_both_isTrue_iff (s.reg a) (s.reg b)

/-- Settles O16, from the one register write of LDI. -/
theorem ldiLoadsImmediate : Obligations.LdiLoadsImmediate := fun a imm s =>
  ⟨_, exec_eq_of_ran (.ldi a imm s), s.setReg_reg_self a imm, rfl, s.setReg_advance_frame a imm 3⟩

/-- Settles O17, from the one register write of ADD and the ALU's sum. -/
theorem addWrapsModulo256 : Obligations.AddWrapsModulo256 := by
  intro a b s
  refine ⟨_, exec_eq_of_ran (.add a b s), ?_, rfl, s.setReg_advance_frame a _ 3⟩
  rw [State.advance_reg, State.setReg_reg_self, aluAdd_toNat]

/-- Settles O18, from the one register write of MUL and the ALU's product, read unsigned and signed. -/
theorem mulKeepsLowByte : Obligations.MulKeepsLowByte := by
  intro a b s
  refine ⟨_, exec_eq_of_ran (.mul a b s), ?_, ?_, rfl, s.setReg_advance_frame a _ 3⟩
  · rw [State.advance_reg, State.setReg_reg_self, aluMul_toNat]
  · rw [State.advance_reg, State.setReg_reg_self, aluMul_eq_ofInt]

end Sys2Proof.Machine
end

section
/-! PROOFS. The statements of 42_output.md: PRN and PRA each append one event and advance pc. -/

namespace Sys2Proof.Machine

/-- PRN and PRA append one event and advance pc (42_output.md R140, R141): nothing else changes. -/
theorem State.emit_advance_frame (s : State) (e : OutEvent) (n : Nat) :
    ((s.emit e).advance n).eq = s.eq ∧ SameRegsExcept [] s ((s.emit e).advance n) ∧
      SameMemExcept [] s ((s.emit e).advance n) ∧ SameControl s ((s.emit e).advance n) :=
  ⟨rfl, fun _ _ => rfl, fun _ _ => rfl, ⟨rfl, rfl, rfl, rfl, rfl⟩⟩

/-- Settles O20: PRN's one event is the number in its register. -/
theorem prnAppendsNumber : Obligations.PrnAppendsNumber := fun a s =>
  ⟨_, exec_eq_of_ran (.prn a s), State.emit_out .., rfl, s.emit_advance_frame (.num (s.reg a)) 2⟩

/-- Settles O21: PRA's one event is the character of its register's byte, whatever the byte. -/
theorem praAppendsCharacter : Obligations.PraAppendsCharacter := fun a s =>
  ⟨_, exec_eq_of_ran (.pra a s), State.emit_out .., rfl, s.emit_advance_frame (.chr (s.reg a)) 2⟩

end Sys2Proof.Machine
end

section
/-! SUPPORT. Facts that the proofs about PUSH, POP and ST share: the byte a push of a register stores, what a pop of a known
byte leaves, and the frames of the three. -/

namespace Sys2Proof.Machine

/-- The register is read after the decrement, so a push of SP stores the decremented SP (43_stack_memory.md R150; D5). -/
theorem State.push_reg_memRead {s : State} (h : s.mem.wf = true) (a : Reg) :
    (s.push (·.reg a)).memRead (s.sp - 1) = if a = SP then s.sp - 1 else s.reg a := by
  rw [State.push_memRead h, if_pos rfl, State.setReg_reg]

theorem State.popReg_reg_self (s : State) {r : Reg} (h : r ≠ SP) : (s.popReg r).reg r = s.memRead s.sp := by
  rw [State.popReg_reg s r r h, if_pos rfl]

/-- A pop with SP one below p brings SP up to p, unless SP itself is popped (43_stack_memory.md R151, R153). -/
theorem State.popReg_sp_of_pred {s : State} {p : Byte} (hs : s.sp = p - 1) {r : Reg} (h : r ≠ SP) :
    (s.popReg r).sp = p := by
  rw [State.popReg_sp, if_neg h, hs, BitVec.sub_add_cancel]

theorem State.popReg_SP_sp (s : State) : (s.popReg SP).sp = s.memRead s.sp + 1 := by
  rw [State.popReg_sp, if_pos rfl]

/-! ## The frames -/

/-- PUSH and CALL move SP, store one byte below it and set pc: nothing else changes. -/
theorem State.push_setPc_frame (s : State) (v : State → Byte) (p : Byte) :
    SameRegsExcept [SP] s ((s.push v).setPc p) ∧ SameMemExcept [s.sp - 1] s ((s.push v).setPc p) ∧
      SameBesideData s ((s.push v).setPc p) := by
  refine ⟨fun r hr => ?_, fun c hc => s.push_memRead_ne v (List.ne_of_not_mem_cons hc), ⟨⟨?_, ?_, ?_, ?_, ?_⟩, ?_, ?_⟩⟩
  · rw [State.setPc_reg, State.push_reg, if_neg (List.ne_of_not_mem_cons hr)]
  all_goals simp

/-- POP writes its register and SP and advances pc: nothing else changes. -/
theorem State.popReg_advance_frame (s : State) (a : Reg) (n : Nat) :
    SameRegsExcept [a, SP] s ((s.popReg a).advance n) ∧ SameMemExcept [] s ((s.popReg a).advance n) ∧
      SameBesideData s ((s.popReg a).advance n) := by
  refine ⟨fun r hr => ?_, fun _ _ => rfl, ⟨⟨rfl, rfl, rfl, rfl, rfl⟩, rfl, rfl⟩⟩
  obtain ⟨hra, hrsp⟩ : r ≠ a ∧ r ≠ SP := by simpa using hr
  rw [State.advance_reg, State.popReg_reg s a r hrsp, if_neg hra]

/-- ST stores one byte and advances pc: nothing else changes. -/
theorem State.memWrite_advance_frame (s : State) (c v : Byte) (n : Nat) :
    SameRegsExcept [] s ((s.memWrite c v).advance n) ∧ SameMemExcept [c] s ((s.memWrite c v).advance n) ∧
      SameBesideData s ((s.memWrite c v).advance n) :=
  ⟨fun _ _ => rfl, fun _ hd => s.memWrite_memRead_ne (List.ne_of_not_mem_cons hd) v,
    ⟨⟨rfl, rfl, rfl, rfl, rfl⟩, rfl, rfl⟩⟩

end Sys2Proof.Machine
end

section
/-! PROOFS. The statements of 43_stack_memory.md: what PUSH, POP and ST do, and that a POP takes back what a PUSH stored. -/

namespace Sys2Proof.Machine

/-- Settles O47: the POP finds the pushed byte one below the old SP; whether a register is SP decides each case. For a = SP
the byte is SP - 1, and the increment after the write makes it SP again. -/
theorem pushThenPop : Obligations.PushThenPop := by
  intro a b s t u hwf hpush hsp hmem
  obtain rfl := Host.Outcome.next.inj ((exec_eq_of_ran (.push a s)).symm.trans hpush)
  rw [State.advance_sp, State.push_sp] at hsp
  have hbyte : u.memRead u.sp = if a = SP then s.sp - 1 else s.reg a := by
    rw [hsp, ← State.push_reg_memRead hwf a]
    simpa using hmem
  refine ⟨⟨_, exec_eq_of_ran (.pop a u), ?_⟩, _, exec_eq_of_ran (.pop b u), fun hb => ?_, fun hb ha => ?_⟩
  · by_cases ha : a = SP
    · subst ha
      have hback : ((u.popReg SP).advance 2).sp = s.sp := by
        rw [State.advance_sp, State.popReg_SP_sp, hbyte, if_pos rfl, BitVec.sub_add_cancel]
      exact ⟨hback, hback⟩
    · exact ⟨(u.popReg_reg_self ha).trans (hbyte.trans (if_neg ha)), State.popReg_sp_of_pred hsp ha⟩
  · exact ⟨(u.popReg_reg_self hb).trans hbyte, State.popReg_sp_of_pred hsp hb⟩
  · rw [State.advance_sp, hb, State.popReg_SP_sp, hbyte, if_neg ha]

/-- Settles O22, from the byte a push of a register stores. -/
theorem pushStoresBelow : Obligations.PushStoresBelow := fun a s hwf =>
  ⟨_, exec_eq_of_ran (.push a s), s.push_sp (·.reg a), State.push_reg_memRead hwf a, rfl,
    s.push_setPc_frame (·.reg a) _⟩

/-- Settles O23: SP, read after the write of the register, is the popped byte only when SP is that register. -/
theorem popLoadsFromStack : Obligations.PopLoadsFromStack := by
  intro a s
  refine ⟨_, exec_eq_of_ran (.pop a s), fun ha => ⟨s.popReg_reg_self ha, ?_⟩, fun ha => ?_, rfl, s.popReg_advance_frame a 2⟩
  · rw [State.advance_sp, State.popReg_sp, if_neg ha]
  · rw [State.advance_sp, ha, State.popReg_SP_sp]

/-- Settles O24: a read after a write at the address in the register, whatever the address. -/
theorem stStoresAtRegister : Obligations.StStoresAtRegister := fun a b s hwf =>
  ⟨_, exec_eq_of_ran (.st a b s), State.memWrite_memRead_self hwf _ _, rfl, s.memWrite_advance_frame _ _ 3⟩

end Sys2Proof.Machine
end

section
/-! SUPPORT. Facts that the proofs about CALL, RET, JMP, JEQ and JNE share: where the two conditional jumps go, the byte
a push stores, and what a jump and a return leave unchanged. -/

namespace Sys2Proof.Machine

/-! ## The conditional jumps -/

/-- JEQ is one write of pc, whichever way it goes (44_control.md R166). -/
theorem exec_jeq (a : Reg) (s : State) :
    exec (.jeq (regByte a)) s = .next (s.setPc (if s.eq = .isTrue then s.reg a else s.pc + 2)) :=
  (exec_eq_of_ran (.jeq a s)).trans (congrArg _ (State.branch_eq _ s _ 2))

/-- JNE is one write of pc, whichever way it goes (44_control.md R167). -/
theorem exec_jne (a : Reg) (s : State) :
    exec (.jne (regByte a)) s = .next (s.setPc (if s.eq = .isFalse then s.reg a else s.pc + 2)) :=
  (exec_eq_of_ran (.jne a s)).trans (congrArg _ (State.branch_eq _ s _ 2))

/-! ## The stack -/

theorem State.push_memRead_self {s : State} (h : s.mem.wf = true) (v : State → Byte) :
    (s.push v).memRead (s.sp - 1) = v (s.setReg SP (s.sp - 1)) := by
  rw [State.push_memRead h, if_pos rfl]

/-! ## The frames -/

/-- JMP, JEQ and JNE set pc: nothing else changes. -/
theorem State.setPc_frame (s : State) (p : Byte) :
    SameRegsExcept [] s (s.setPc p) ∧ SameMemExcept [] s (s.setPc p) ∧ SameBesideData s (s.setPc p) :=
  ⟨fun _ _ => rfl, fun _ _ => rfl, ⟨⟨rfl, rfl, rfl, rfl, rfl⟩, rfl, rfl⟩⟩

/-- RET sets pc and moves SP: nothing else changes. -/
theorem State.popPc_frame (s : State) :
    SameRegsExcept [SP] s s.popPc ∧ SameMemExcept [] s s.popPc ∧ SameBesideData s s.popPc := by
  refine ⟨fun r hr => ?_, fun _ _ => rfl, ⟨⟨rfl, rfl, rfl, rfl, rfl⟩, rfl, rfl⟩⟩
  rw [State.popPc_reg, if_neg (List.ne_of_not_mem_cons hr)]

end Sys2Proof.Machine
end

section
/-! PROOFS. The statements of 44_control.md: where CALL, RET, JMP, JEQ and JNE go, that a RET takes back what a CALL
pushed, and that JEQ and JNE are opposite. -/

namespace Sys2Proof.Machine

/-- Settles O48: the RET finds the return address one below the CALL's SP. -/
theorem callThenRet : Obligations.CallThenRet := by
  intro a s t u hwf hcall hsp hmem
  obtain rfl := Host.Outcome.next.inj ((exec_eq_of_ran (.call a s)).symm.trans hcall)
  rw [State.setPc_sp, State.push_sp] at hsp hmem
  refine ⟨_, exec_eq_of_ran (.ret u), ?_, ?_⟩
  · rw [State.popPc_pc, hsp, hmem]
    exact State.push_memRead_self hwf (·.pc + 2)
  · rw [State.popPc_sp, hsp, BitVec.sub_add_cancel]

/-- Settles O25: the target is read after the push, which has moved SP and no other register. -/
theorem callPushesReturnAddress : Obligations.CallPushesReturnAddress := fun a s hwf =>
  ⟨_, exec_eq_of_ran (.call a s), s.push_sp (·.pc + 2), State.push_memRead_self hwf (·.pc + 2),
    s.push_reg _ a, s.push_setPc_frame _ _⟩

/-- Settles O26, from what a pop into pc leaves. -/
theorem retPopsPc : Obligations.RetPopsPc := fun s =>
  ⟨_, exec_eq_of_ran (.ret s), s.popPc_pc, s.popPc_sp, s.popPc_frame⟩

/-- Settles O27, from the one write of pc. -/
theorem jmpSetsPc : Obligations.JmpSetsPc := fun a s =>
  ⟨_, exec_eq_of_ran (.jmp a s), rfl, s.setPc_frame (s.reg a)⟩

/-- Settles O28: of the three values of eq only true selects the register. -/
theorem jeqTakenIffTrue : Obligations.JeqTakenIffTrue := by
  refine fun a s => ⟨_, exec_jeq a s, fun h => ?_, fun h => ?_, fun h => ?_, s.setPc_frame _⟩
  all_goals simp [h]

/-- Settles O29: of the three values of eq only false selects the register. -/
theorem jneTakenIffFalse : Obligations.JneTakenIffFalse := by
  refine fun a s => ⟨_, exec_jne a s, fun h => ?_, fun h => ?_, fun h => ?_, s.setPc_frame _⟩
  all_goals simp [h]

/-- Settles O50, one case per value of eq: each of the two jumps is taken at one set value, neither at unset. -/
theorem conditionalJumpsAreOpposite : Obligations.ConditionalJumpsAreOpposite := by
  intro a s t u hjeq hjne
  obtain rfl := Host.Outcome.next.inj ((exec_jeq a s).symm.trans hjeq)
  obtain rfl := Host.Outcome.next.inj ((exec_jne a s).symm.trans hjne)
  cases h : s.eq with
  | isTrue => exact ⟨fun _ => .inl (by simp), nofun⟩
  | isFalse => exact ⟨fun _ => .inr (by simp), nofun⟩
  | unset => exact ⟨fun hne => absurd rfl hne, fun _ => by simp⟩

end Sys2Proof.Machine
end

section
/-! SUPPORT. Facts that the proofs about IRET share: which of the nine slots each register and pc are popped from, and that
the interrupt entry stored there what the return pops. -/

namespace Sys2Proof.Machine

/-! ## The return -/

theorem State.returnFromInterrupt_sp (s : State) : s.returnFromInterrupt.sp = s.memRead s.sp + 9 := by
  rw [State.sp_eq, State.returnFromInterrupt_reg, if_pos rfl]

/-- With t7 the byte at SP, every register but SP is popped from its slot at t7 + 7 - r (45_system.md R181). -/
theorem State.returnFromInterrupt_reg_of_ne_sp (s : State) {r : Reg} (h : r ≠ SP) :
    s.returnFromInterrupt.reg r = s.memRead (s.memRead s.sp + BitVec.ofNat 8 (7 - r.val)) := by
  rw [State.returnFromInterrupt_reg, if_neg h]

/-! ## The frame of an entry -/

/-- The nine addresses below p that an entry with SP = p pushes to (60_exceptions.md R212). -/
def stackFrame (p : Byte) : List Byte := [p - 1, p - 2, p - 3, p - 4, p - 5, p - 6, p - 7, p - 8, p - 9]

/-- Counted up from SP after the entry, the nine addresses are the offsets 0 to 8. -/
theorem mem_stackFrame (p : Byte) {k : Nat} (hk : k < 9) : p - 9 + BitVec.ofNat 8 k ∈ stackFrame p := by
  rw [sub_add]
  interval_cases k <;> simp [stackFrame]

/-- The entry leaves each register, as it stands after the entry, in the slot that the return pops it from: the IS slot
holds the byte with its bit cleared, the SP slot the final SP (60_exceptions.md R209, R212; D5). -/
theorem State.takeInterrupt_memRead_reg_slot {s : State} (h : s.mem.wf = true) (l : Line) (r : Reg) :
    (s.takeInterrupt l).memRead (s.sp - 9 + BitVec.ofNat 8 (7 - r.val)) = (s.takeInterrupt l).reg r := by
  rw [State.takeInterrupt_memRead h, State.takeInterrupt_reg, sub_add]
  fin_cases r <;> simp [SP, IS]

/-- The entry leaves the interrupted pc in the slot that the return pops pc from (60_exceptions.md R208). -/
theorem State.takeInterrupt_memRead_pc_slot {s : State} (h : s.mem.wf = true) (l : Line) :
    (s.takeInterrupt l).memRead (s.sp - 9 + 8) = s.pc := by
  rw [State.takeInterrupt_memRead h, sub_add]
  simp

end Sys2Proof.Machine
end

section
/-! PROOFS. The statements of 45_system.md: what NOP, IRET and HLT do, and that an IRET takes back what an interrupt entry
pushed. -/

namespace Sys2Proof.Machine

/-- Settles O30, from the slot each register is popped from. -/
theorem iretRestoresFromStack : Obligations.IretRestoresFromStack := by
  intro s
  have hreg {r : Reg} (hr : r ≠ SP) := s.returnFromInterrupt_reg_of_ne_sp hr
  exact ⟨_, exec_eq_of_ran (.iret s), hreg (r := 0) (by decide), hreg (r := 1) (by decide), hreg (r := 2) (by decide),
    hreg (r := 3) (by decide), hreg (r := 4) (by decide), hreg (r := 5) (by decide), hreg (r := 6) (by decide),
    s.returnFromInterrupt_sp, s.returnFromInterrupt_pc, s.returnFromInterrupt_ie, s.returnFromInterrupt_eqFlag,
    s.returnFromInterrupt_out, s.returnFromInterrupt_ir, s.returnFromInterrupt_clock, s.returnFromInterrupt_haltReason,
    s.returnFromInterrupt_inputs, fun c _ => s.returnFromInterrupt_memRead c⟩

/-- Settles O45: the byte at SP is the final SP of the entry, so each pop reads the slot that its register was pushed to. -/
theorem interruptRoundTrip : Obligations.InterruptRoundTrip := by
  intro s u l hwf hsp hmem
  have hslot {k : Nat} (hk : k < 9) : u.memRead (s.sp - 9 + BitVec.ofNat 8 k) =
      (s.takeInterrupt l).memRead (s.sp - 9 + BitVec.ofNat 8 k) := hmem _ (mem_stackFrame s.sp hk)
  have hregSlot (r : Reg) : u.memRead (s.sp - 9 + BitVec.ofNat 8 (7 - r.val)) = (s.takeInterrupt l).reg r :=
    (hslot (by omega)).trans (State.takeInterrupt_memRead_reg_slot hwf l r)
  have htop : u.memRead u.sp = s.sp - 9 := by
    rw [hsp, State.takeInterrupt_sp]
    simpa [State.takeInterrupt_reg, SP] using hregSlot SP
  have hpc : u.returnFromInterrupt.pc = s.pc := by
    rw [State.returnFromInterrupt_pc, htop]
    exact (hslot (k := 8) (by decide)).trans (State.takeInterrupt_memRead_pc_slot hwf l)
  have hspBack : u.returnFromInterrupt.sp = s.sp := by
    rw [State.returnFromInterrupt_sp, htop, BitVec.sub_add_cancel]
  have hreg {r : Reg} (hr : r ≠ SP) : u.returnFromInterrupt.reg r = (s.takeInterrupt l).reg r := by
    rw [State.returnFromInterrupt_reg_of_ne_sp u hr, htop, hregSlot]
  refine ⟨_, exec_eq_of_ran (.iret u), hpc, hspBack, u.returnFromInterrupt_ie, fun r hr => ?_, fun k hk => ?_⟩
  · by_cases hrsp : r = SP
    · rw [hrsp]
      exact hspBack
    · rw [hreg hrsp, State.takeInterrupt_reg, if_neg hrsp, if_neg hr]
  · rw [hreg is_ne_sp, State.takeInterrupt_reg, if_neg is_ne_sp, if_pos rfl, clearBit_getLsbD _ l hk]

/-- Settles O15: NOP is one write of pc. -/
theorem nopOnlyAdvances : Obligations.NopOnlyAdvances := fun s =>
  ⟨_, exec_eq_of_ran (.nop s), s.advance_pc 1, s.setPc_frame (s.pc + 1)⟩

/-- Settles O31: HLT writes the clock and the reason. -/
theorem hltHalts : Obligations.HltHalts := fun s =>
  ⟨_, exec_eq_of_ran (.hlt s), s.halt_clock _, s.halt_haltReason _, rfl, rfl, rfl, rfl, rfl, rfl, fun _ _ => rfl,
    fun _ _ => rfl⟩

end Sys2Proof.Machine
end

section
/-! SUPPORT. Facts that the proofs about exceptions share: when no line is taken, the memory frame of the interrupt entry and
its slots counted down from the old SP, and the tick and the host's calls, forwards. -/

namespace Sys2Proof.Machine

variable {m : OpcodeMap} {s : State}

/-! ## The interrupt check -/

theorem State.pendingLine_eq_none_iff : s.pendingLine = none ↔ s.ie = false ∨ s.reg IS &&& s.reg IM = 0 := by
  cases hie : s.ie <;> simp [State.pendingLine, hie, lowestSetBit_none_iff]

/-! ## The interrupt entry -/

theorem sub_one_sub_ofNat (p : Byte) (k : Nat) : p - 1 - BitVec.ofNat 8 k = p - BitVec.ofNat 8 (k + 1) := by
  rw [sub_sub, add_comm, BitVec.ofNat_add]
  rfl

/-- Pushing registers one after the other writes as many bytes downwards from SP, and no other byte. -/
theorem State.foldl_push_memRead_of_ne (rs : List Reg) (s : State) {c : Byte}
    (h : ∀ k < rs.length, c ≠ s.sp - BitVec.ofNat 8 (k + 1)) :
    (rs.foldl (fun t r => t.push (·.reg r)) s).memRead c = s.memRead c := by
  induction rs generalizing s with
  | nil => rfl
  | cons r rs ih =>
    have htail : ∀ k < rs.length, c ≠ (s.push (·.reg r)).sp - BitVec.ofNat 8 (k + 1) := fun k hk => by
      rw [State.push_sp, sub_one_sub_ofNat]
      exact h (k + 1) (by simpa using hk)
    rw [List.foldl_cons, ih _ htail]
    exact s.push_memRead_ne _ (h 0 (by simp))

/-- Counted down from the old SP, the nine slots of an entry are the offsets 1 to 9. -/
theorem sub_mem_stackFrame (p : Byte) {k : Nat} (hk : k < 9) : p - BitVec.ofNat 8 (k + 1) ∈ stackFrame p := by
  interval_cases k <;> simp [stackFrame]

/-- The entry writes no byte outside its nine slots, whatever form memory has (60_exceptions.md R211). -/
theorem State.takeInterrupt_memRead_of_notMem (l : Line) {c : Byte} (hc : c ∉ stackFrame s.sp) :
    (s.takeInterrupt l).memRead c = s.memRead c := by
  have hslot : ∀ k < 9, c ≠ s.sp - BitVec.ofNat 8 (k + 1) := fun k hk e => hc (e ▸ sub_mem_stackFrame s.sp hk)
  have hregs : ∀ k < Reg.ascending.length, c ≠ (entryPrefix s l).sp - BitVec.ofNat 8 (k + 1) := fun k hk => by
    rw [entryPrefix_sp, sub_one_sub_ofNat]
    exact hslot (k + 1) (Nat.succ_lt_succ hk)
  calc (s.takeInterrupt l).memRead c
      = (Reg.ascending.foldl (fun t r => t.push (·.reg r)) (entryPrefix s l)).memRead c := rfl
    _ = (entryPrefix s l).memRead c := State.foldl_push_memRead_of_ne _ _ hregs
    _ = s.memRead c := State.push_memRead_ne _ _ (by simpa [is_ne_sp] using hslot 0 (by decide))

/-- Counted down from the old SP, register r as the entry leaves it stands r + 2 below (60_exceptions.md R209, R212). -/
theorem State.takeInterrupt_memRead_sub_reg (hwf : s.mem.wf = true) (l : Line) (r : Reg) :
    (s.takeInterrupt l).memRead (s.sp - BitVec.ofNat 8 (r.val + 2)) = (s.takeInterrupt l).reg r := by
  have haddr : s.sp - BitVec.ofNat 8 (r.val + 2) = s.sp - 9 + BitVec.ofNat 8 (7 - r.val) := by
    rw [sub_add]
    fin_cases r <;> rfl
  rw [haddr, State.takeInterrupt_memRead_reg_slot hwf]

/-- Counted down from the old SP, the interrupted pc is the first byte of the frame (60_exceptions.md R208, R212). -/
theorem State.takeInterrupt_memRead_sub_one (hwf : s.mem.wf = true) (l : Line) :
    (s.takeInterrupt l).memRead (s.sp - 1) = s.pc := by
  rw [← State.takeInterrupt_memRead_pc_slot hwf l, sub_add]
  rfl

theorem State.takeInterrupt_reg_of_ne (s : State) (l : Line) {r : Reg} (his : r ≠ IS) (hsp : r ≠ SP) :
    (s.takeInterrupt l).reg r = s.reg r := by
  rw [State.takeInterrupt_reg, if_neg hsp, if_neg his]

theorem State.takeInterrupt_reg_is (s : State) (l : Line) : (s.takeInterrupt l).reg IS = clearBit (s.reg IS) l := by
  rw [State.takeInterrupt_reg, if_neg is_ne_sp, if_pos rfl]

/-! ## The tick that fetches -/

theorem whileRunning_of_running (h : s.clock = .running) (k : Result) : whileRunning s k = k := by
  simp [whileRunning, h]

/-- A running machine with a tick due and no line to take goes on to the fetch (60_exceptions.md R205). -/
theorem stepWith_eq_fetchAndRun (hi : s.nextInput = .tick) (hc : s.clock = .running) (hp : s.pendingLine = none) :
    stepWith m s = fetchAndRun m s.afterInput :=
  (stepWith_of_no_pendingLine hi hp).trans (whileRunning_of_running hc _)

/-- A fetched byte with no handler raises DecodeFault (60_exceptions.md R201). -/
theorem fetchAndRun_of_dispatch_none (h : dispatch m (s.memRead s.pc) = none) :
    fetchAndRun m s = .next s.fetchOpcode.decodeFault := by
  have hd : decodeWith m s.fetchOpcode.fetchedBytes = .error (.noHandler (s.memRead s.pc)) :=
    decodeWith_of_dispatch_none h _
  simp only [fetchAndRun, hd]

/-! ## The environment's actions -/

/-- The timer fires on a running clock (60_exceptions.md R215). -/
theorem stepWith_of_timer (hi : s.nextInput = .timer) (hc : s.clock = .running) :
    stepWith m s = .next s.afterInput.raiseTimer := by
  rw [stepWith, hi, act, envTimer]
  exact whileRunning_of_running hc _

theorem stepWith_of_poke {a v : Byte} (hi : s.nextInput = .poke a v) : stepWith m s = envPoke a v s.afterInput := by
  rw [stepWith, hi, act]

theorem stepWith_of_startClock (hi : s.nextInput = .startClock) : stepWith m s = envStartClock s.afterInput := by
  rw [stepWith, hi, act]

theorem stepWith_of_stopClock (hi : s.nextInput = .stopClock) : stepWith m s = envStopClock s.afterInput := by
  rw [stepWith, hi, act]

theorem envPoke_of_stopped (a v : Byte) (h : s.clock = .stopped) : envPoke a v s = .next (s.memWrite a v) := by
  simp [envPoke, h]

theorem envPoke_of_not_stopped (a v : Byte) (h : s.clock ≠ .stopped) :
    envPoke a v s = .refused (.pokeAfterStart s.clock) := by
  cases hc : s.clock with
  | stopped => exact absurd hc h
  | running | halted => simp [envPoke, hc]

theorem envStartClock_of_stopped (h : s.clock = .stopped) : envStartClock s = .next s.start := by
  simp [envStartClock, h]

theorem envStartClock_of_not_stopped (h : s.clock ≠ .stopped) :
    envStartClock s = .refused (.startAfterStart s.clock) := by
  cases hc : s.clock with
  | stopped => exact absurd hc h
  | running | halted => simp [envStartClock, hc]

theorem envStopClock_of_not_halted (h : s.clock ≠ .halted) : envStopClock s = .next (s.halt .hostStop) := by
  cases hc : s.clock with
  | halted => exact absurd hc h
  | stopped | running => simp [envStopClock, hc]

theorem envStopClock_of_halted (h : s.clock = .halted) : envStopClock s = .next s := by
  simp [envStopClock, h]

/-- After stopClock the clock is halted, whatever it was (60_exceptions.md R232). -/
theorem envStopClock_clock {t : State} (h : envStopClock s = .next t) : t.clock = .halted := by
  by_cases hc : s.clock = .halted
  · rw [← Host.Outcome.next.inj ((envStopClock_of_halted hc).symm.trans h), hc]
  · rw [← Host.Outcome.next.inj ((envStopClock_of_not_halted hc).symm.trans h), State.halt_clock]

end Sys2Proof.Machine
end

section
/-! PROOFS. The statements of 60_exceptions.md: the interrupt check and the entry, the decode fault, the timer and the host's
calls. -/

namespace Sys2Proof.Machine

/-- Settles O40: the line taken is the lowest bit set in both IS and IM, and there is none for ie false or no such bit. -/
theorem lowestEnabledLineIsTaken : Obligations.LowestEnabledLineIsTaken := by
  refine ⟨fun s l => ?_, fun s => State.pendingLine_eq_none_iff, fun m s hi hc =>
    ⟨fun l hp => stepWith_of_pendingLine hi hc hp, stepWith_eq_fetchAndRun hi hc⟩⟩
  rw [State.pendingLine_eq_some_iff, lowestSetBit_some_iff]
  simp only [BitVec.getLsbD_and, Bool.and_eq_true, ← Bool.not_eq_true, and_assoc]

/-- Settles O42: each slot holds what the entry leaves in its register, and only IS and SP differ from before. -/
theorem entryStacksFrame : Obligations.EntryStacksFrame := by
  intro s l hwf
  have hslot (r : Reg) := State.takeInterrupt_memRead_sub_reg hwf l r
  have hkept {r : Reg} (his : r ≠ IS) (hsp : r ≠ SP) := (hslot r).trans (s.takeInterrupt_reg_of_ne l his hsp)
  have htop := (hslot SP).trans (s.takeInterrupt_sp l)
  exact ⟨s.takeInterrupt_sp l, State.takeInterrupt_memRead_sub_one hwf l, hkept (r := 0) (by decide) (by decide),
    hkept (r := 1) (by decide) (by decide), hkept (r := 2) (by decide) (by decide),
    hkept (r := 3) (by decide) (by decide), hkept (r := 4) (by decide) (by decide),
    hkept (r := 5) (by decide) (by decide), hslot 6, htop⟩

/-- Settles O43: the vector is read after the pushes, so it is the byte from before them outside the nine slots, and the old
pc in the first slot. -/
theorem entryJumpsThroughVector : Obligations.EntryJumpsThroughVector := by
  intro s l
  have hpc := s.takeInterrupt_pc l
  refine ⟨hpc, fun hout => hpc.trans (State.takeInterrupt_memRead_of_notMem l hout), fun hwf hslot => ?_⟩
  rw [hpc, vectorAddress, vectorBase, hslot, State.takeInterrupt_memRead_sub_one hwf l]

/-- Settles O44: the tick ends with the entry, which writes ie, pc, IS, SP and the nine slots. -/
theorem entryFrame : Obligations.EntryFrame := by
  intro m s l hi hc hp
  refine ⟨_, stepWith_of_pendingLine hi hc hp, State.takeInterrupt_ir _ l, State.takeInterrupt_eqFlag _ l,
    State.takeInterrupt_out _ l, State.takeInterrupt_clock _ l, State.takeInterrupt_haltReason _ l,
    State.takeInterrupt_inputs _ l, fun r hr => ?_, fun c hout => State.takeInterrupt_memRead_of_notMem l hout⟩
  obtain ⟨his, hsp⟩ : r ≠ IS ∧ r ≠ SP := by simpa using hr
  exact State.takeInterrupt_reg_of_ne _ l his hsp

/-- Settles O41, from the value the entry leaves in IS. -/
theorem entryDisablesAndConsumes : Obligations.EntryDisablesAndConsumes := by
  refine fun s l => ⟨s.takeInterrupt_ie l, fun k hk => ?_⟩
  rw [State.takeInterrupt_reg_is, clearBit_getLsbD _ l hk]

/-- Settles O13: a byte assigned to no mnemonic has no handler, so the tick that fetches it is a DecodeFault. -/
theorem decodeFaultHalts : Obligations.DecodeFaultHalts := by
  refine ⟨fun m s hi hc hp hbyte => ?_, fun _ _ => rfl⟩
  rw [stepWith_eq_fetchAndRun hi hc hp]
  exact fetchAndRun_of_dispatch_none (s := s.afterInput) (dispatch_eq_none_of_byteOf_ne hbyte)

/-- Settles O52: the timer's update is one write of IS. -/
theorem timerSetsBitZero : Obligations.TimerSetsBitZero := fun _ s hi hc =>
  ⟨_, stepWith_of_timer hi hc, fun k _ => s.afterInput.raiseTimer_getLsbD k,
    fun _ hr => State.setReg_reg_ne _ (List.ne_of_not_mem_cons hr) _, fun _ _ => rfl,
    rfl, rfl, rfl, rfl, rfl, rfl, rfl, rfl⟩

/-- Settles O53: the two calls, each from stopped and from elsewhere; a poke is one memory write. -/
theorem hostCallsFollowLifecycle : Obligations.HostCallsFollowLifecycle := by
  refine ⟨fun m s a v hi => ?_, fun m s hi => ?_⟩
  · rw [stepWith_of_poke hi]
    exact ⟨fun hc hwf => ⟨_, envPoke_of_stopped a v hc, State.memWrite_memRead_self hwf a v,
      fun _ hout => State.memWrite_memRead_ne _ (List.ne_of_not_mem_cons hout) v, rfl⟩,
      envPoke_of_not_stopped (s := s.afterInput) a v⟩
  · rw [stepWith_of_startClock hi]
    exact ⟨envStartClock_of_stopped (s := s.afterInput), envStartClock_of_not_stopped (s := s.afterInput)⟩

/-- Settles O54: the call halts or finds the clock halted, and on a halted clock no tick and no timer event has a step. -/
theorem stopClockHalts : Obligations.StopClockHalts := by
  intro m s hi
  rw [stepWith_of_stopClock hi]
  exact ⟨envStopClock_of_not_halted (s := s.afterInput), envStopClock_of_halted (s := s.afterInput),
    fun t ht hnext => (noStepUnlessRunning m t hnext).2 (envStopClock_clock ht)⟩

end Sys2Proof.Machine
end

section
/-! SUPPORT. The state at construction: its registers, and that it meets the machine's invariant (70_reset_and_hazards.md
R240). -/

namespace Sys2Proof.Machine

variable {image : Memory}

/-- Every register but SP is zero at construction. -/
theorem State.construct_reg (sp : Byte) (image : Memory) (r : Reg) :
    (State.construct sp image).reg r = if r = SP then sp else 0 := by
  fin_cases r <;> rfl

/-- A reset machine lists no memory byte, so every address reads as unlisted. -/
theorem State.reset_memRead (a : Byte) : State.reset.memRead a = unlistedByte := rfl

/-- A machine as constructed is stopped with no reason recorded, so only the form of its memory is left to ask for. -/
theorem State.Inv.of_construct (m : OpcodeMap) (sp : Byte) (h : image.wf = true) : (State.construct sp image).Inv m where
  memWf := h
  haltedIff := by simp [State.construct]
  report := trivial
  unstarted _ := ⟨sp, rfl⟩

end Sys2Proof.Machine
end

section
/-! PROOFS. The statements of 70_reset_and_hazards.md: the state at construction and at reset, and the invariant there. -/

namespace Sys2Proof.Machine

/-- Settles O56: the registers from `State.construct_reg`; the other fields are the ones the construction writes. -/
theorem resetState : Obligations.ResetState :=
  ⟨fun sp image => ⟨fun r hr => (State.construct_reg sp image r).trans (if_neg hr), State.construct_reg sp image SP,
    rfl, rfl, rfl, rfl, rfl, rfl, rfl, rfl⟩, rfl, State.reset_memRead⟩

/-- Settles O57: reset is the construction with the empty image, which is canonical. -/
theorem constructionMeetsInvariant : Obligations.ConstructionMeetsInvariant :=
  ⟨fun m sp _ hwf => .of_construct m sp hwf, .of_construct opcodeMap spReset (image := []) rfl⟩

end Sys2Proof.Machine
end
